-- ==== Sys2Proof/Word.lean ====
section
/-! DEFINITION. The value types of the core: bytes, command words, samples. -/

namespace Sys2Proof

/-- One data byte of the register bus (30_encoding.md R91, field `D`). -/
abbrev Byte := BitVec 8

/-- The command word `CMD` (30_encoding.md R90). -/
abbrev CmdWord := BitVec 16

/-- The render parameter word `RPW` (30_encoding.md R111). -/
abbrev RpwWord := BitVec 38

/-- One value of the renderer: an exact rational (00_scope.md R10). -/
abbrev Sample := Rat

/-- The sequence of `n` zeros (00_scope.md R11). -/
def zeros (n : Nat) : List Sample := List.replicate n 0

end Sys2Proof
end

