-- ==== Sys2Proof/Config.lean ====
section
/-! DEFINITION. The configuration of one instance (00_scope.md R6) as plain data, and the two uninterpreted functions
that stand for what an implementation may put in place of the quantiser and of the filter. -/

namespace Sys2Proof

/-- What STOP does to queued data: the parameter `STOP_POLICY` (R6, 43_audio_queue.md R244). -/
inductive StopPolicy where
  | discard
  | drain
deriving DecidableEq, Repr

/-- The quantiser `FQ` (R6, 42_renderer.md R206, U11): the identity, which is the default, or the `k`-th function of an
unknown family. A claim for every `Quantiser` is a claim for every `FQ` (log 7). -/
inductive Quantiser where
  | identity
  | other (k : Nat)
deriving DecidableEq, Repr

/-- The filter `FILT` for `FF` other than 0xFF (R196, U5): the identity, which is the default, or the `k`-th filter of an
unknown family (log 8). -/
inductive FilterModel where
  | identity
  | other (k : Nat)
deriving DecidableEq, Repr

/-- The register-bus operations over which the acknowledge predicate `ACKS` of U3 ranges (log 9). -/
inductive BusOp where
  | wrDurphon
  | wrInfl
  | wrRateinf
  | wrCtlartamp
  | wrFilter
  | rdStatus
deriving DecidableEq, Repr

/-- One entry of `TABLE`: a phoneme sample (10_state.md R39, 20_memory.md R63). -/
structure TableEntry where
  offset : Nat
  length : Nat
deriving DecidableEq, Repr

/-- The configuration record of R6, with the three optional parameters that 93_implementation_defined.md names
(U3 `acks`, U4 `statusSpkBit`, U5 `filt`). It is fixed before the first operation and never changes (R7). -/
structure Config where
  /-- `CLOCK_HZ`, host cycles per second. -/
  clockHz      : Nat
  /-- `CYCLE_W`, the width of `CYC` and `PEND` in bits. -/
  cycleW       : Nat
  /-- `FS`, samples per second. -/
  fs           : Nat
  /-- `SAMPLE_W`, the width of one library sample in bits. -/
  sampleW      : Nat
  /-- `PCM`, the shared sample array, each sample read as a signed integer. -/
  pcm          : List Int
  /-- `TABLE`, entry `e` serves phoneme `e + 2`. -/
  table        : List TableEntry
  /-- `FQ`. -/
  fq           : Quantiser
  /-- `QUEUE_DEPTH`, the bound of the audio queue in buffers. -/
  queueDepth   : Nat
  /-- `BLOCK_SIZE`, samples per output block. -/
  blockSize    : Nat
  /-- `STOP_POLICY`. -/
  stopPolicy   : StopPolicy
  /-- `FILT`, the filter for `FF` other than 0xFF (U5). -/
  filt         : FilterModel
  /-- `ACKS`, the register-bus operations that also acknowledge (U3). -/
  acks         : List BusOp
  /-- `STATUS_SPK_BIT`, the position of the speaking bit in the status byte (U4). -/
  statusSpkBit : Fin 8
deriving DecidableEq, Repr

/-- The quantisers other than the identity, of which nothing is known but that each is a function of its argument
(R206, U11). DESIGN CHOICE (log 7). -/
opaque Config.freeQuantiser : Nat → Rat → Rat

/-- The filters other than the identity, of which nothing is known but that each is a function of `FF`, of the whole
sample sequence and of the sample's index (U5). DESIGN CHOICE (log 8). -/
opaque Config.freeFilter : Nat → BitVec 8 → List Rat → Nat → Rat

/-- The example configuration EX1 of 95_test_vectors.md section 2, with the spec's values for U3, U4 and U5.
DESIGN CHOICE (log 2): R6 gives the parameters no values, and `State.reset` needs one configuration. -/
def Config.ex1 : Config where
  clockHz := 1000
  cycleW := 64
  fs := 250
  sampleW := 16
  pcm := [0, 3000, 6000, 9000, 12000, 9000, 6000, 3000, 0, -3000, -6000, -9000, -12000, -9000, -6000, -3000]
  table := [⟨0, 16⟩, ⟨0, 8⟩, ⟨8, 8⟩, ⟨4, 5⟩] ++ List.replicate 58 ⟨0, 0⟩
  fq := .identity
  queueDepth := 2
  blockSize := 4
  stopPolicy := .discard
  filt := .identity
  acks := []
  statusSpkBit := 7

end Sys2Proof
end

