-- ==== Sys2Proof/Syntax.lean ====
section
/-! DEFINITION. The commands the core accepts and the instructions they name (30_encoding.md R90 to R100). -/

namespace Sys2Proof

/-- A rendered buffer `(pcm, dur_ms)` (10_state.md R38). R38 gives the samples the range of `FQ`; what ENQ on the direct port
does with other samples the spec does not say, and the model takes any rationals (log 23). -/
structure Buffer where
  pcm   : List Sample
  durMs : Nat
deriving DecidableEq, Repr

/-- The six operands of RENDER (R111, 42_renderer.md R190). The phoneme has 8 bits, the others have their registers' widths. -/
structure RenderParams where
  p8   : BitVec 8
  dm   : BitVec 2
  rate : BitVec 4
  inf  : BitVec 12
  amp  : BitVec 4
  ff   : BitVec 8
deriving DecidableEq, Repr

/-- The extension operand `EXT` of a command (R90): nothing, a cycle count, a render parameter word or a buffer. -/
inductive Ext where
  | none
  | cycles (n : Nat)
  | rpw (w : RpwWord)
  | buffer (b : Buffer)
deriving DecidableEq, Repr

/-- One operation as it is written: the pair `(CMD, EXT)` (R90). -/
structure Command where
  cmd : CmdWord
  ext : Ext
deriving DecidableEq, Repr

/-- Why a command names no operation: the cases (a) to (f) of R108, tried in the order of the constructors (log 18). -/
inductive DecodeError where
  /-- R108 (b): bit 11, `Z`, is 1. -/
  | reservedBitSet
  /-- R108 (a): `OP` in 0xA..0xF. -/
  | reservedOp
  /-- R108 (c): `D` is not 0 in format R. -/
  | readDataNotZero
  /-- R108 (d): some bit of `CMD[11:0]` is not 0 in format C, N, P or B. -/
  | fieldNotZero
  /-- R108 (e): some bit of `CMD[11:1]` is not 0 in format S. -/
  | startFieldNotZero
  /-- R108 (f): `EXT` is missing or of the wrong type. -/
  | wrongExt
deriving DecidableEq, Repr

/-- Who issues an operation (00_scope.md R8). -/
inductive Agent where
  | host
  | audio
deriving DecidableEq, Repr

/-- The sixteen operations of R100. The rows of opcode_table.json that differ only in the address pattern of
`WR_INVALID` (two rows) and of `RD_INVALID` (three rows) share a constructor (log 16). -/
inductive Instr where
  /-- `WR_DURPHON`, write of `d` to address 0 (R131). -/
  | wrDurphon (d : Byte)
  /-- `WR_INFL`, write to address 1 (R132). -/
  | wrInfl (d : Byte)
  /-- `WR_RATEINF`, write to address 2 (R133). -/
  | wrRateinf (d : Byte)
  /-- `WR_CTLARTAMP`, write to address 3 (R134). -/
  | wrCtlartamp (d : Byte)
  /-- `WR_FILTER`, write to address 4 (R135). -/
  | wrFilter (d : Byte)
  /-- `WR_INVALID`, write to address `a` in 5..7 (R136). -/
  | wrInvalid (a : BitVec 3) (d : Byte)
  /-- `RD_STATUS`, read at address 0 (R138). -/
  | rdStatus
  /-- `RD_INVALID`, read at address `a` in 1..7 (R139). -/
  | rdInvalid (a : BitVec 3)
  /-- `RESET` (R181). -/
  | reset
  /-- `IACK` (R178). -/
  | iack
  /-- `ADVANCE n` (R172). -/
  | advance (n : Nat)
  /-- `PULL` (R236), the one operation of agent A. -/
  | pull
  /-- `START k`, `k` the bit `DEV_OK` (R240). -/
  | start (devOk : Bool)
  /-- `STOP` (R244). -/
  | stop
  /-- `RENDER` on the direct port (R190). -/
  | render (p : RenderParams)
  /-- `ENQ b` on the direct port (R231). -/
  | enq (b : Buffer)
deriving DecidableEq, Repr

end Sys2Proof
end

