-- ==== Sys2Proof/WellFormed.lean ====
section
/-! DEFINITION. Which terms of `Instr` are operations of the core: the two operand ranges that the types leave open. -/

namespace Sys2Proof

/-- A write to an invalid address has `A` in 5..7 (R136), a read of an invalid address has `A` in 1..7 (R139).
Every other operand fills its type: every data byte is legal (R109), every `RPW` is legal (R111), the cycle count's
width is a matter of the configuration, which ADVANCE checks itself (R176, log 12), and the samples of a buffer are taken
as they are, inside the range of `FQ` or not (R38, log 23). -/
def Instr.wf : Instr → Bool
  | .wrInvalid a _ => 5 ≤ a.toNat
  | .rdInvalid a => 1 ≤ a.toNat
  | .wrDurphon _ => true
  | .wrInfl _ => true
  | .wrRateinf _ => true
  | .wrCtlartamp _ => true
  | .wrFilter _ => true
  | .rdStatus => true
  | .reset => true
  | .iack => true
  | .advance _ => true
  | .pull => true
  | .start _ => true
  | .stop => true
  | .render _ => true
  | .enq _ => true

end Sys2Proof
end

