-- ==== Sys2Proof/Decode.lean ====
section
/-! DEFINITION. The decoder from a command to an instruction, total on every command (30_encoding.md R91 to R111), and
the encoder beside it. -/

namespace Sys2Proof

/-- `CMD[15:12]`, the operation code (R91). -/
def Command.op (c : Command) : BitVec 4 := c.cmd.extractLsb' 12 4

/-- `CMD[11]`, reserved (R91). -/
def Command.z (c : Command) : BitVec 1 := c.cmd.extractLsb' 11 1

/-- `CMD[10:8]`, the register address `A` (R91, R92). -/
def Command.addr (c : Command) : BitVec 3 := c.cmd.extractLsb' 8 3

/-- `CMD[7:0]`, the data byte `D` (R91). -/
def Command.data (c : Command) : Byte := c.cmd.extractLsb' 0 8

/-- The fields of the render parameter word (R111). -/
def decodeRpw (w : RpwWord) : RenderParams where
  p8 := w.extractLsb' 30 8
  dm := w.extractLsb' 28 2
  rate := w.extractLsb' 24 4
  inf := w.extractLsb' 12 12
  amp := w.extractLsb' 8 4
  ff := w.extractLsb' 0 8

/-- Format W: the address selects the operation (R93, R100). -/
def decodeWrite (c : Command) : Except DecodeError Instr :=
  match c.ext with
  | .none =>
    match c.addr.toNat with
    | 0 => .ok (.wrDurphon c.data)
    | 1 => .ok (.wrInfl c.data)
    | 2 => .ok (.wrRateinf c.data)
    | 3 => .ok (.wrCtlartamp c.data)
    | 4 => .ok (.wrFilter c.data)
    | _ => .ok (.wrInvalid c.addr c.data)
  | _ => .error .wrongExt

/-- Format R (R94). -/
def decodeRead (c : Command) : Except DecodeError Instr :=
  if c.data ≠ 0 then .error .readDataNotZero
  else
    match c.ext with
    | .none => if c.addr = 0 then .ok .rdStatus else .ok (.rdInvalid c.addr)
    | _ => .error .wrongExt

/-- Format C: a strobe with no operand (R95). -/
def decodeStrobe (i : Instr) (c : Command) : Except DecodeError Instr :=
  if c.cmd.extractLsb' 0 12 ≠ 0 then .error .fieldNotZero
  else
    match c.ext with
    | .none => .ok i
    | _ => .error .wrongExt

/-- Format N: ADVANCE with its cycle count (R97). -/
def decodeAdvance (c : Command) : Except DecodeError Instr :=
  if c.cmd.extractLsb' 0 12 ≠ 0 then .error .fieldNotZero
  else
    match c.ext with
    | .cycles n => .ok (.advance n)
    | _ => .error .wrongExt

/-- Format S: START with `DEV_OK` in bit 0 (R96). -/
def decodeStart (c : Command) : Except DecodeError Instr :=
  if c.cmd.extractLsb' 1 11 ≠ 0 then .error .startFieldNotZero
  else
    match c.ext with
    | .none => .ok (.start (c.cmd.getLsbD 0))
    | _ => .error .wrongExt

/-- Format P: RENDER with its parameter word (R98). -/
def decodeRender (c : Command) : Except DecodeError Instr :=
  if c.cmd.extractLsb' 0 12 ≠ 0 then .error .fieldNotZero
  else
    match c.ext with
    | .rpw w => .ok (.render (decodeRpw w))
    | _ => .error .wrongExt

/-- Format B: ENQ with its buffer, passed as a value (R99). -/
def decodeEnq (c : Command) : Except DecodeError Instr :=
  if c.cmd.extractLsb' 0 12 ≠ 0 then .error .fieldNotZero
  else
    match c.ext with
    | .buffer b => .ok (.enq b)
    | _ => .error .wrongExt

/-- The decoder (R90, R100): every command names one operation or is refused with a reason (R108). -/
def decode (c : Command) : Except DecodeError Instr :=
  if c.z ≠ 0 then .error .reservedBitSet
  else
    match c.op.toNat with
    | 0x0 => decodeWrite c
    | 0x1 => decodeRead c
    | 0x2 => decodeStrobe .reset c
    | 0x3 => decodeStrobe .iack c
    | 0x4 => decodeAdvance c
    | 0x5 => decodeStrobe .pull c
    | 0x6 => decodeStart c
    | 0x7 => decodeStrobe .stop c
    | 0x8 => decodeRender c
    | 0x9 => decodeEnq c
    | _ => .error .reservedOp

/-- A command word from its four fields (R91). -/
def cmdWord (op : BitVec 4) (a : BitVec 3) (d : Byte) : CmdWord := op ++ 0#1 ++ a ++ d

/-- The render parameter word of six operands (R111). -/
def encodeRpw (p : RenderParams) : RpwWord := p.p8 ++ p.dm ++ p.rate ++ p.inf ++ p.amp ++ p.ff

/-- The encoder, from the same tables (R93 to R100). -/
def encode : Instr → Command
  | .wrDurphon d => ⟨cmdWord 0x0 0 d, .none⟩
  | .wrInfl d => ⟨cmdWord 0x0 1 d, .none⟩
  | .wrRateinf d => ⟨cmdWord 0x0 2 d, .none⟩
  | .wrCtlartamp d => ⟨cmdWord 0x0 3 d, .none⟩
  | .wrFilter d => ⟨cmdWord 0x0 4 d, .none⟩
  | .wrInvalid a d => ⟨cmdWord 0x0 a d, .none⟩
  | .rdStatus => ⟨cmdWord 0x1 0 0, .none⟩
  | .rdInvalid a => ⟨cmdWord 0x1 a 0, .none⟩
  | .reset => ⟨cmdWord 0x2 0 0, .none⟩
  | .iack => ⟨cmdWord 0x3 0 0, .none⟩
  | .advance n => ⟨cmdWord 0x4 0 0, .cycles n⟩
  | .pull => ⟨cmdWord 0x5 0 0, .none⟩
  | .start k => ⟨cmdWord 0x6 0 (if k then 1 else 0), .none⟩
  | .stop => ⟨cmdWord 0x7 0 0, .none⟩
  | .render p => ⟨cmdWord 0x8 0 0, .rpw (encodeRpw p)⟩
  | .enq b => ⟨cmdWord 0x9 0 0, .buffer b⟩

/-- Which agent issues an operation (R8, the column "agent" of R100). -/
def agentOf : Instr → Agent
  | .pull => .audio
  | .wrDurphon _ => .host
  | .wrInfl _ => .host
  | .wrRateinf _ => .host
  | .wrCtlartamp _ => .host
  | .wrFilter _ => .host
  | .wrInvalid _ _ => .host
  | .rdStatus => .host
  | .rdInvalid _ => .host
  | .reset => .host
  | .iack => .host
  | .advance _ => .host
  | .start _ => .host
  | .stop => .host
  | .render _ => .host
  | .enq _ => .host

/-- The extension operand whose type `CMD[15:12]` fixes (R90), read from the bits `x` that follow the command word.
A buffer has no bit-level encoding (R99), so only the empty one, `x = 0`, can be written; bits that fit no operand of the
format give an operand of the wrong type, which the decoder refuses. DESIGN CHOICE (log 17). -/
def extOfBits (cmd : CmdWord) (x : Nat) : Ext :=
  match (cmd.extractLsb' 12 4).toNat with
  | 0x4 => .cycles x
  | 0x8 => if x < 2 ^ 38 then .rpw (BitVec.ofNat 38 x) else .cycles x
  | 0x9 => if x = 0 then .buffer ⟨[], 0⟩ else .cycles x
  | _ => if x = 0 then .none else .cycles x

/-- The command whose bits are `w`, numbered as opcode_table.json numbers them: `CMD` in bits 15..0, the extension operand
above it, zero above `nbits` (log 17). -/
def commandOfTableWord (nbits w : Nat) : Command :=
  let cmd := BitVec.ofNat 16 (w % 2 ^ nbits)
  ⟨cmd, extOfBits cmd (w % 2 ^ nbits / 2 ^ 16)⟩

/-- The instruction the decoder reads from a word of the opcode table. -/
def decodeTableWord (nbits w : Nat) : Option Instr :=
  match decode (commandOfTableWord nbits w) with
  | .ok i => some i
  | .error _ => none

end Sys2Proof
end

