-- ==== Sys2Proof/Machine/State.lean ====
section
/-! DEFINITION. The state of one instance of the core (10_state.md R20), the reasons a step can stop, and the state after
power-on. -/

namespace Sys2Proof.Machine

/-- One event of the log (10_state.md R40, 30_encoding.md R116). -/
inductive Event where
  /-- The interrupt line was deasserted. -/
  | irqDeassert
  /-- The interrupt line was asserted. -/
  | irqAssert
  /-- A play event, with the phoneme, the duration mode and the duration in milliseconds. -/
  | play (ph : BitVec 6) (dm : BitVec 2) (durMs : Nat)
  /-- The queue refused the buffer of a play event. -/
  | drop
deriving DecidableEq, Repr

/-- The sink mode `MODE` (R37). -/
inductive SinkMode where
  | stopped
  | running
  | noop
deriving DecidableEq, Repr

/-- The direction of a register-bus access, recorded with a fault (R113). -/
inductive Access where
  | read
  | write
deriving DecidableEq, Repr

/-- The faults of the core (60_exceptions.md R261). A fault leaves the core's state as it was and the next operation proceeds
normally (R262), so the machine does not stop: a meaning answers a next state in which `out` holds the fault and `faulted`
is set. No meaning answers `Host.Outcome.fault` (log 5). -/
inductive Fault where
  /-- Code 1. Raised by WR_INVALID and RD_INVALID, with the address and the direction; safe: the spec states it. -/
  | invalidRegisterAddress (a : BitVec 3) (dir : Access)
  /-- Code 2. Raised by RENDER on a phoneme operand above 63; safe: the spec states it. -/
  | invalidPhonemeCode (p8 : BitVec 8)
deriving DecidableEq, Repr

/-- The refusals (60_exceptions.md R264): the spec gives the input no meaning. All are safe. -/
inductive Refusal where
  /-- An instruction without a meaning in the model. Raised by no arm of `exec`; safe. -/
  | notModelled (mnemonic : String)
  /-- `IllegalCommand` (30_encoding.md R108). Raised by `step` when the decoder refuses the command; safe. -/
  | illegalCommand (why : DecodeError)
  /-- `CycleOverflow` (41_scheduler.md R176). Raised by ADVANCE and by a register write that plays; safe. -/
  | cycleOverflow
  /-- `BadConfig` (00_scope.md R7, U9). Raised by `step` before any operation runs; safe. -/
  | badConfig
  /-- `PullNotRunning` (43_audio_queue.md R238). Raised by PULL when `MODE` is not `RUNNING`; safe. -/
  | pullNotRunning
deriving DecidableEq, Repr

/-- The result of ENQ (R114, R231). -/
inductive EnqResult where
  | ok
  | full
deriving DecidableEq, Repr

/-- The result of START (R114, R240). -/
inductive StartResult where
  | ok
  | deviceUnavailable
deriving DecidableEq, Repr

/-- One output block with its underrun flag (R115). -/
structure Block where
  samples  : List Sample
  underrun : Bool
deriving DecidableEq, Repr

/-- What the operation performed last returned: `Ok(result)` or `Fault(code, info)` of 00_scope.md R12 (log 4). -/
inductive Result where
  /-- `Ok` with no result: the register writes, RESET, IACK, ADVANCE. -/
  | nothing
  /-- The status byte of RD_STATUS. -/
  | status (b : Byte)
  | enq (r : EnqResult)
  | start (r : StartResult)
  /-- The rendered buffer of RENDER. -/
  | buffer (b : Buffer)
  /-- The block of PULL. -/
  | block (b : Block)
  /-- The blocks of STOP; empty but under `DRAIN`. -/
  | blocks (bs : List Block)
  | fault (f : Fault)
deriving DecidableEq, Repr

/-- The chip: the control registers (R21 to R28), the runtime state (R30 to R32), the interrupt line (R33) and the event
log (R40). -/
structure Chip where
  /-- `DM`. -/
  dm   : BitVec 2
  /-- `PH`. -/
  ph   : BitVec 6
  /-- `INF`. -/
  inf  : BitVec 12
  /-- `RATE`. -/
  rate : BitVec 4
  /-- `CTL`: true is 1, STANDBY; false is 0, ACTIVE (R25). -/
  ctl  : Bool
  /-- `ART`, read by no rule (R26). -/
  art  : BitVec 3
  /-- `AMP`. -/
  amp  : BitVec 4
  /-- `FF`. -/
  ff   : BitVec 8
  /-- `SPK`. -/
  spk  : Bool
  /-- `PEND`. -/
  pend : Option Nat
  /-- `CYC`, kept below `2 ^ CYCLE_W` by the refusal of R176. -/
  cyc  : Nat
  /-- `IRQ`: true is asserted. -/
  irq  : Bool
  /-- `LOG`, oldest event first. -/
  log  : List Event
deriving DecidableEq, Repr

/-- The audio sink (R35 to R37). -/
structure Sink where
  /-- `Q`, oldest buffer first. -/
  q    : List Buffer
  /-- `HPOS`. -/
  hpos : Nat
  /-- `MODE`. -/
  mode : SinkMode
deriving DecidableEq, Repr

/-- One instance: its configuration, the sixteen state elements of R20 in `chip` and `sink`, and the model's own four
fields (INVENTORY.md). -/
structure State where
  /-- The configuration (00_scope.md R6), which no step changes (log 1). -/
  cfg     : Config
  chip    : Chip
  sink    : Sink
  /-- The commands still to be performed, in the total order of 20_memory.md R81 (log 3). -/
  cmds    : List Command
  /-- What the operation performed last returned (log 4). -/
  out     : Result
  /-- Whether an operation of this run ended in a fault: the sticky flag of U1 (log 5). -/
  faulted : Bool
  /-- The output port `FULL` (30_encoding.md R119): whether the enqueue performed last, on the direct port or inside a play
  event, was answered `FULL` (log 24). -/
  enqFull : Bool
deriving DecidableEq, Repr

/-- The chip after power-on (R49, 41_scheduler.md R183). -/
def Chip.powerOn : Chip where
  dm := 0
  ph := 0
  inf := 0
  rate := 0
  ctl := true
  art := 0
  amp := 0
  ff := 0
  spk := false
  pend := none
  cyc := 0
  irq := false
  log := []

/-- The sink after power-on (R49, R183). -/
def Sink.powerOn : Sink where
  q := []
  hpos := 0
  mode := .stopped

/-- An instance of the given configuration after power-on (R183), with no command waiting. -/
def State.powerOn (cfg : Config) : State where
  cfg := cfg
  chip := Chip.powerOn
  sink := Sink.powerOn
  cmds := []
  out := .nothing
  faulted := false
  enqFull := false

/-- The state after reset: power-on under the spec's example configuration (log 2). -/
def State.reset : State := State.powerOn Config.ex1

end Sys2Proof.Machine
end

