-- ==== Sys2Proof/Machine/Flags.lean ====
section
/-! DEFINITION. The one-bit elements SPK and IRQ with the events their changes emit (10_state.md R30, R33, R40), and the
status byte (30_encoding.md R112). -/

namespace Sys2Proof.Machine

/-- `emit`: append one event to `LOG` (00_scope.md R11). -/
def emit (e : Event) (c : Chip) : Chip := { c with log := c.log ++ [e] }

/-- `if x[IRQ] = 1 then { x[IRQ] <- 0 ; emit IRQ_DEASSERT }` (41_scheduler.md R166, R178, R181). -/
def deassertIrq (c : Chip) : Chip := if c.irq then emit .irqDeassert { c with irq := false } else c

/-- `x[IRQ] <- 1 ; emit IRQ_ASSERT` (R172). -/
def assertIrq (c : Chip) : Chip := emit .irqAssert { c with irq := true }

/-- Firing the interrupt: the line is asserted, `PEND` and `SPK` are cleared, and nothing else happens
(R172, 60_exceptions.md R273). -/
def fireIrq (c : Chip) : Chip := { assertIrq c with pend := none, spk := false }

/-- `if x[PEND] = some(c) and x[CYC] >= c` the interrupt fires (R172). -/
def fireIfDue (c : Chip) : Chip :=
  match c.pend with
  | some target => if target ≤ c.cyc then fireIrq c else c
  | none => c

/-- The status byte: `SPK` in its bit, the other bits 0 (R112). The bit is 7 unless the configuration says otherwise
(U4, log 10). -/
def statusByte (cfg : Config) (spk : Bool) : Byte := if spk then 1#8 <<< cfg.statusSpkBit.val else 0#8

/-- The fault codes of R113. -/
def faultCode : Fault → Nat
  | .invalidRegisterAddress _ _ => 1
  | .invalidPhonemeCode _ => 2

/-- The result codes of ENQ (R114). -/
def enqCode : EnqResult → Nat
  | .ok => 0
  | .full => 1

/-- The result codes of START (R114). -/
def startCode : StartResult → Nat
  | .ok => 0
  | .deviceUnavailable => 1

/-- The event word `EVW = kind[1:0] ++ ph[5:0] ++ dm[1:0] ++ dur_ms[8:0]` (R116). -/
def eventWord : Event → BitVec 19
  | .irqDeassert => 0#2 ++ 0#6 ++ 0#2 ++ 0#9
  | .irqAssert => 1#2 ++ 0#6 ++ 0#2 ++ 0#9
  | .play ph dm ms => 2#2 ++ ph ++ dm ++ BitVec.ofNat 9 ms
  | .drop => 3#2 ++ 0#6 ++ 0#2 ++ 0#9

end Sys2Proof.Machine
end

