-- ==== Sys2Proof/Machine/Operands.lean ====
section
/-! DEFINITION. The operand forms of the register bus and of the renderer: the fields of the five data bytes
(30_encoding.md R101 to R106) and the render parameters a play event takes from the registers (41_scheduler.md R166). -/

namespace Sys2Proof.Machine

/-- Address 0, bits 7:6 (R101). -/
def fieldDm (d : Byte) : BitVec 2 := d.extractLsb' 6 2

/-- Address 0, bits 5:0 (R101). -/
def fieldPh (d : Byte) : BitVec 6 := d.extractLsb' 0 6

/-- Address 2, bits 7:4 (R103). -/
def fieldRate (d : Byte) : BitVec 4 := d.extractLsb' 4 4

/-- Address 3, bit 7 (R104). -/
def fieldCtl (d : Byte) : Bool := d.getLsbD 7

/-- Address 3, bits 6:4 (R104). -/
def fieldArt (d : Byte) : BitVec 3 := d.extractLsb' 4 3

/-- Address 3, bits 3:0 (R104). -/
def fieldAmp (d : Byte) : BitVec 4 := d.extractLsb' 0 4

/-- `INF[10:3] <- D[7:0]`, the other bits kept (R102, R106). -/
def insertInfMiddle (inf : BitVec 12) (d : Byte) : BitVec 12 :=
  inf.extractLsb' 11 1 ++ d ++ inf.extractLsb' 0 3

/-- `INF[11] <- D[3]`, `INF[2:0] <- D[2:0]`, the other bits kept (R103, R106). -/
def insertInfOuter (inf : BitVec 12) (d : Byte) : BitVec 12 :=
  d.extractLsb' 3 1 ++ inf.extractLsb' 3 8 ++ d.extractLsb' 0 3

/-- Step 2 of a write to address 0: the fields the byte feeds (40_register_bus.md R131). -/
def storeDurPhon (d : Byte) (c : Chip) : Chip := { c with dm := fieldDm d, ph := fieldPh d }

/-- A write to address 1 (R132). -/
def storeInfl (d : Byte) (c : Chip) : Chip := { c with inf := insertInfMiddle c.inf d }

/-- A write to address 2 (R133). -/
def storeRateInf (d : Byte) (c : Chip) : Chip := { c with rate := fieldRate d, inf := insertInfOuter c.inf d }

/-- Step 2 of a write to address 3 (R134). -/
def storeCtlArtAmp (d : Byte) (c : Chip) : Chip := { c with ctl := fieldCtl d, art := fieldArt d, amp := fieldAmp d }

/-- A write to address 4 (R135). -/
def storeFilter (d : Byte) (c : Chip) : Chip := { c with ff := d }

/-- The operands with which a play event calls RENDER: the registers, the phoneme zero-extended to 8 bits (R166). -/
def playParams (c : Chip) : RenderParams where
  p8 := c.ph.setWidth 8
  dm := c.dm
  rate := c.rate
  inf := c.inf
  amp := c.amp
  ff := c.ff

end Sys2Proof.Machine
end

