-- ==== Sys2Proof/Machine/Duration.lean ====
section
/-! DEFINITION. The duration of a phoneme in milliseconds and in host cycles (41_scheduler.md R160, R162), the one formula
that the scheduler and the renderer share (R164). -/

namespace Sys2Proof.Machine

/-- `duration_ms(rate, dm) = floor( floor((16 - rate) * 4096 / 1023) * (4 - dm) )` (R160). -/
def durationMs (rate : BitVec 4) (dm : BitVec 2) : Nat :=
  ((16 - rate.toNat) * 4096 / 1023) * (4 - dm.toNat)

/-- `duration_cycles = floor(duration_ms * clock_hz / 1000)`, the product formed before the division (R162). -/
def durationCycles (cfg : Config) (ms : Nat) : Nat := ms * cfg.clockHz / 1000

end Sys2Proof.Machine
end

