-- ==== Sys2Proof/Machine/Parameters.lean ====
section
/-! DEFINITION. When a configuration is well formed (00_scope.md R6, R7), and the two configuration functions FQ and FILT. -/

namespace Sys2Proof.Machine

/-- Every sample of `PCM` is a signed number of `SAMPLE_W` bits (R6). -/
def pcmOk (cfg : Config) : Bool :=
  cfg.pcm.all fun v => decide (-(2 : Int) ^ (cfg.sampleW - 1) ≤ v) && decide (v ≤ (2 : Int) ^ (cfg.sampleW - 1) - 1)

/-- `TABLE` has 62 entries, each inside `PCM` (R6, 20_memory.md R64). -/
def tableOk (cfg : Config) : Bool :=
  decide (cfg.table.length = 62) && cfg.table.all fun e => decide (e.offset + e.length ≤ cfg.pcm.length)

/-- The configuration is well formed: every constraint of R6 holds (R7). `FQ(0) = 0` holds of every quantiser by its
definition below. That `SAMPLE_W` is at least 1 is DEDUCED from the range of R6 (log 13). -/
def configOk (cfg : Config) : Bool :=
  decide (1 ≤ cfg.clockHz) && decide (1 ≤ cfg.fs) && decide (1 ≤ cfg.queueDepth) && decide (1 ≤ cfg.blockSize)
    && decide (1 ≤ cfg.sampleW) && pcmOk cfg && tableOk cfg

/-- `FQ` (R6, 42_renderer.md R206): the identity, or an unknown function of its argument with `FQ(0) = 0` (U11, log 7). -/
def quantise (f : Quantiser) (v : Sample) : Sample :=
  match f with
  | .identity => v
  | .other k => if v = 0 then 0 else Config.freeQuantiser k v

/-- `FILT(ff, x)` for `ff` other than 0xFF (R196, U5): the identity, or an unknown filter that keeps the length and maps
zeros to zeros (log 8). -/
def applyFilter (f : FilterModel) (ff : BitVec 8) (x : List Sample) : List Sample :=
  match f with
  | .identity => x
  | .other k => if x = zeros x.length then x else (List.range x.length).map (Config.freeFilter k ff x)

end Sys2Proof.Machine
end

