-- ==== Sys2Proof/Machine/Pipeline.lean ====
section
/-! DEFINITION. The six stages of the renderer in their fixed order (42_renderer.md R190 to R206). Every value is an exact
rational. -/

namespace Sys2Proof.Machine

/-- The table index of a phoneme code in 1..63: 1 is an alias of 2 (R193, R194). -/
def tableIndex (p8 : BitVec 8) : Nat := if p8 = 1 then 0 else p8.toNat - 2

/-- Stage 1, `LOOKUP(p8)` (R193). Phoneme 0 reads no entry. Under a well-formed configuration every read is in bounds
(20_memory.md R64), so the default values of the two reads are never seen (log 11). -/
def lookup (cfg : Config) (p8 : BitVec 8) : List Sample :=
  if p8 = 0 then []
  else
    let e := cfg.table.getD (tableIndex p8) ⟨0, 0⟩
    (List.range e.length).map fun k => ((cfg.pcm.getD (e.offset + k) 0 : Int) : Rat)

/-- Stage 2, `AMPSCALE(x1, amp)` (R195). -/
def ampScale (x : List Sample) (amp : BitVec 4) : List Sample := x.map fun v => v * (amp.toNat : Rat) / 15

/-- Stage 3, `FILTER(x2, ff)` (R196): 0xFF is silence, any other value is `FILT`, the identity by default. -/
def filterStage (cfg : Config) (x : List Sample) (ff : BitVec 8) : List Sample :=
  if ff = 0xFF then zeros x.length else applyFilter cfg.filt ff x

/-- Means of consecutive groups of `g` samples, a short last group dropped (R198). -/
def groupMeans (g : Nat) (x : List Sample) : List Sample :=
  (List.range (x.length / g)).map fun i => ((List.range g).map fun j => x.getD (g * i + j) 0).sum / (g : Rat)

/-- First half of stage 4: sample averaging by duration mode (R198). -/
def average (x : List Sample) (dm : BitVec 2) : List Sample :=
  match dm.toNat with
  | 2 => groupMeans 2 x
  | 3 => groupMeans 4 x
  | _ => x

/-- `lerp(x, p)`, fractional-index linear interpolation with the last sample held (R200). It is called on non-empty
sequences only; on the empty one it is 0 (log 11). -/
def lerp (x : List Sample) (p : Rat) : Sample :=
  let k := p.floor.toNat
  let f := p - (k : Rat)
  if x.length - 1 ≤ k then x.getD (x.length - 1) 0
  else x.getD k 0 * (1 - f) + x.getD (k + 1) 0 * f

/-- Second half of stage 4: stretch or compression to exactly `n` samples (R199). -/
def stretch (x : List Sample) (n : Nat) : List Sample :=
  if x = [] then zeros n
  else (List.range n).map fun (i : Nat) => lerp x ((i : Rat) * (x.length : Rat) / (n : Rat))

/-- `N = floor(duration_ms * FS / 1000)` (R197). -/
def alignedLength (cfg : Config) (dm : BitVec 2) (rate : BitVec 4) : Nat := durationMs rate dm * cfg.fs / 1000

/-- Stage 4, `ALIGN(x3, dm, rate)` (R197). -/
def align (cfg : Config) (x : List Sample) (dm : BitVec 2) (rate : BitVec 4) : List Sample :=
  stretch (average x dm) (alignedLength cfg dm rate)

/-- The length of stage 5's output for an input of `n` samples (R203). -/
def pitchedLength (n : Nat) (inf : BitVec 12) : Nat :=
  if n = 0 then 0 else (n - 1) * 4096 / (2048 + inf.toNat) + 1

/-- Stage 5, `PITCH(x4, inf)`: resampling by the ratio `(2048 + inf) / 4096` (R203). -/
def pitch (x : List Sample) (inf : BitVec 12) : List Sample :=
  (List.range (pitchedLength x.length inf)).map fun (j : Nat) => lerp x ((j : Rat) * ((2048 + inf.toNat : Nat) : Rat) / 4096)

/-- Stage 6, `NORMALIZE(x5)`: division by the full scale `2^(SAMPLE_W-1)`, then `FQ` (R206). -/
def normalize (cfg : Config) (x : List Sample) : List Sample :=
  x.map fun v => quantise cfg.fq (v / ((2 ^ (cfg.sampleW - 1) : Nat) : Rat))

/-- RENDER after its phoneme check: the six stages in their order and the duration tag (R190, R191). -/
def renderBuffer (cfg : Config) (p : RenderParams) : Buffer where
  pcm :=
    let x1 := lookup cfg p.p8
    let x2 := ampScale x1 p.amp
    let x3 := filterStage cfg x2 p.ff
    let x4 := align cfg x3 p.dm p.rate
    let x5 := pitch x4 p.inf
    normalize cfg x5
  durMs := durationMs p.rate p.dm

/-- RENDER (R190): the phoneme check first (R192), then the pipeline. -/
def renderChecked (cfg : Config) (p : RenderParams) : Option Buffer :=
  if 63 < p.p8.toNat then none else some (renderBuffer cfg p)

end Sys2Proof.Machine
end

