-- ==== Sys2Proof/Machine/Ops.lean ====
section
/-! DEFINITION. The operations that several instructions share: how an operation ends, raising a fault, the acknowledge,
the play event, the FIFO, and the reset of the chip. -/

namespace Sys2Proof.Machine

/-- An operation completes and returns `r` (00_scope.md R12, `Ok(result)`). -/
def finish (r : Result) (s : State) : Host.Outcome State Fault Refusal := .next { s with out := r }

/-- `raise <Fault>(info)`: the operation ends with the fault as its outcome and no state element is changed (00_scope.md R11,
60_exceptions.md R262). The run-level flag of U1 is set, and the next operation proceeds normally (log 5). -/
def raise (f : Fault) (s : State) : Host.Outcome State Fault Refusal :=
  .next { s with out := .fault f, faulted := true }

/-- The body of IACK (41_scheduler.md R178). -/
def acknowledge (s : State) : State := { s with chip := deassertIrq s.chip }

/-- ENQ (43_audio_queue.md R231): the result and the sink after it. The samples of `b` are not looked at: a buffer outside
the range R38 gives is queued like any other (log 23). -/
def enqueue (cfg : Config) (b : Buffer) (k : Sink) : EnqResult × Sink :=
  if k.mode = .noop then (.ok, k)
  else if k.q.length = cfg.queueDepth then (.full, k)
  else (.ok, { k with q := k.q ++ [b] })

/-- An ENQ of `b` in `s`, from either of its two callers: its result, and the state with the sink after it and the result on
the port `FULL` (30_encoding.md R119, log 24). -/
def enqueueIn (b : Buffer) (s : State) : EnqResult × State :=
  let e := enqueue s.cfg b s.sink
  (e.1, { s with sink := e.2, enqFull := decide (e.1 = .full) })

/-- The chip's part of `PLAY()`, after RENDER and ENQ (R166): the line is deasserted, `SPK` is set, the interrupt is
scheduled, and the events are emitted in the order deassert, play, drop. -/
def scheduleChip (dms dcy : Nat) (r : EnqResult) (c : Chip) : Chip :=
  let c1 := deassertIrq c
  let c2 := emit (.play c.ph c.dm dms) { c1 with spk := true, pend := some (c.cyc + dcy) }
  if r = .full then emit .drop c2 else c2

/-- `PLAY()` (R166). It reads the registers as they are when it starts. The overflow test precedes every change; a refusal
carries no state, so the fields the write has stored go with it (R176). RENDER is called after its check, which a 6-bit
phoneme always passes (42_renderer.md R192). -/
def play (s : State) : Host.Outcome State Fault Refusal :=
  let dms := durationMs s.chip.rate s.chip.dm
  let dcy := durationCycles s.cfg dms
  if 2 ^ s.cfg.cycleW ≤ s.chip.cyc + dcy then .refused .cycleOverflow
  else
    let e := enqueueIn (renderBuffer s.cfg (playParams s.chip)) s
    finish .nothing { e.2 with chip := scheduleChip dms dcy e.1 s.chip }

/-- The loop of PULL (43_audio_queue.md R236) from queue `q` and read position `hpos`, with `need` samples still to deliver:
the samples, the underrun bit, and the queue and read position it leaves. A head that is used up is removed in the same
PULL; an empty head is removed and contributes nothing. A read position beyond the head, which no run reaches (R247), counts
as used up (log 14). -/
def pullLoop : List Buffer → Nat → Nat → List Sample × Bool × List Buffer × Nat
  | [], hpos, need => if need = 0 then ([], false, [], hpos) else (zeros need, true, [], hpos)
  | b :: rest, hpos, need =>
    if need = 0 then ([], false, b :: rest, hpos)
    else
      let k := min need (b.pcm.length - hpos)
      let part := (b.pcm.drop hpos).take k
      if b.pcm.length ≤ hpos + k then
        let r := pullLoop rest 0 (need - k)
        (part ++ r.1, r.2.1, r.2.2.1, r.2.2.2)
      else (part, false, b :: rest, hpos + k)

/-- The body of PULL: one block and the sink after it (R236). -/
def pullBody (blockSize : Nat) (k : Sink) : Block × Sink :=
  let r := pullLoop k.q k.hpos blockSize
  (⟨r.1, r.2.1⟩, { k with q := r.2.2.1, hpos := r.2.2.2 })

/-- The number of samples still to deliver: the sum of the buffers' lengths minus `HPOS` (R245). -/
def remaining (k : Sink) : Nat := (k.q.map fun b => b.pcm.length).sum - k.hpos

/-- `while R > 0`, run the body of PULL and collect its block (R245). `fuel` bounds the number of passes; each pass lowers
`R` by at least one when `BLOCK_SIZE` is at least one, so `R` passes are enough. -/
def drainLoop (blockSize : Nat) : Nat → Sink → List Block
  | 0, _ => []
  | fuel + 1, k =>
    if remaining k = 0 then []
    else
      let r := pullBody blockSize k
      r.1 :: drainLoop blockSize fuel r.2

/-- `DRAIN()` (R245): the blocks that play out the queue. -/
def drainBlocks (blockSize : Nat) (k : Sink) : List Block := drainLoop blockSize (remaining k) k

/-- What RESET does to the chip (41_scheduler.md R181): the registers, `SPK` and `PEND` to their defaults, the line
deasserted; `CYC` and, but for that event, `LOG` are kept. -/
def resetChip (c : Chip) : Chip :=
  deassertIrq
    { c with dm := 0, ph := 0, inf := 0, rate := 0, ctl := true, art := 0, amp := 0, ff := 0, spk := false, pend := none }

/-- The register-bus operation that an instruction is, if the acknowledge predicate of U3 ranges over it (log 9). -/
def busOpOf : Instr → Option BusOp
  | .wrDurphon _ => some .wrDurphon
  | .wrInfl _ => some .wrInfl
  | .wrRateinf _ => some .wrRateinf
  | .wrCtlartamp _ => some .wrCtlartamp
  | .wrFilter _ => some .wrFilter
  | .rdStatus => some .rdStatus
  | .wrInvalid _ _ => none
  | .rdInvalid _ => none
  | .reset => none
  | .iack => none
  | .advance _ => none
  | .pull => none
  | .start _ => none
  | .stop => none
  | .render _ => none
  | .enq _ => none

/-- `ACKS(op)` (U3), false of every operation under the spec's default. -/
def acksAfter (cfg : Config) (i : Instr) : Bool :=
  match busOpOf i with
  | some op => cfg.acks.contains op
  | none => false

/-- What follows an operation that completed: the body of IACK, if the configuration says that the operation acknowledges
(U3, log 9). Under the spec's default nothing follows (R178). -/
def afterOp (i : Instr) (s : State) : State := if acksAfter s.cfg i then acknowledge s else s

end Sys2Proof.Machine
end

