-- ==== Sys2Proof/Machine/AudioQueue.lean ====
section
/-! DEFINITION. The operations of the audio sink: PULL, START, STOP, ENQ (43_audio_queue.md R231 to R245). -/

namespace Sys2Proof.Machine

/-- `PULL` (R236), refused when `MODE` is not `RUNNING` (R238). -/
def execPull (s : State) : Host.Outcome State Fault Refusal :=
  if s.sink.mode = .running then
    let r := pullBody s.cfg.blockSize s.sink
    finish (.block r.1) { s with sink := r.2 }
  else .refused .pullNotRunning

/-- `START k` (R240). -/
def execStart (devOk : Bool) (s : State) : Host.Outcome State Fault Refusal :=
  if s.sink.mode ≠ .stopped then finish (.start .ok) s
  else if devOk then finish (.start .ok) { s with sink := { s.sink with mode := .running } }
  else finish (.start .deviceUnavailable) { s with sink := ⟨[], 0, .noop⟩ }

/-- `STOP` (R244), with `DRAIN()` of R245 under that policy. -/
def execStop (s : State) : Host.Outcome State Fault Refusal :=
  if s.sink.mode = .stopped then finish (.blocks []) s
  else
    let blocks :=
      if s.sink.mode = .running ∧ s.cfg.stopPolicy = .drain then drainBlocks s.cfg.blockSize s.sink else []
    finish (.blocks blocks) { s with sink := ⟨[], 0, .stopped⟩ }

/-- `ENQ b` on the direct port (R231). -/
def execEnq (b : Buffer) (s : State) : Host.Outcome State Fault Refusal :=
  let e := enqueueIn b s
  finish (.enq e.1) e.2

end Sys2Proof.Machine
end

