-- ==== Sys2Proof/Machine/RegisterBus.lean ====
section
/-! DEFINITION. The operations of the register bus (40_register_bus.md R130 to R139). -/

namespace Sys2Proof.Machine

/-- `WR_DURPHON` (R131): store, then play if the chip is ACTIVE. -/
def execWrDurphon (d : Byte) (s : State) : Host.Outcome State Fault Refusal :=
  let s1 := { s with chip := storeDurPhon d s.chip }
  if s.chip.ctl then finish .nothing s1 else play s1

/-- `WR_INFL` (R132). -/
def execWrInfl (d : Byte) (s : State) : Host.Outcome State Fault Refusal :=
  finish .nothing { s with chip := storeInfl d s.chip }

/-- `WR_RATEINF` (R133). -/
def execWrRateinf (d : Byte) (s : State) : Host.Outcome State Fault Refusal :=
  finish .nothing { s with chip := storeRateInf d s.chip }

/-- `WR_CTLARTAMP` (R134): store, then play on the transition from STANDBY to ACTIVE, with the new amplitude. -/
def execWrCtlartamp (d : Byte) (s : State) : Host.Outcome State Fault Refusal :=
  let s1 := { s with chip := storeCtlArtAmp d s.chip }
  if s.chip.ctl && !fieldCtl d then play s1 else finish .nothing s1

/-- `WR_FILTER` (R135). -/
def execWrFilter (d : Byte) (s : State) : Host.Outcome State Fault Refusal :=
  finish .nothing { s with chip := storeFilter d s.chip }

/-- `WR_INVALID` (R136): the data byte is discarded. -/
def execWrInvalid (a : BitVec 3) (_d : Byte) (s : State) : Host.Outcome State Fault Refusal :=
  raise (.invalidRegisterAddress a .write) s

/-- `RD_STATUS` (R138). -/
def execRdStatus (s : State) : Host.Outcome State Fault Refusal :=
  finish (.status (statusByte s.cfg s.chip.spk)) s

/-- `RD_INVALID` (R139). -/
def execRdInvalid (a : BitVec 3) (s : State) : Host.Outcome State Fault Refusal :=
  raise (.invalidRegisterAddress a .read) s

end Sys2Proof.Machine
end

