-- ==== Sys2Proof/Machine/Renderer.lean ====
section
/-! DEFINITION. RENDER on the direct port (42_renderer.md R190, R192). -/

namespace Sys2Proof.Machine

/-- `RENDER`: the buffer is returned and no state element changes; a phoneme operand above 63 is a fault. -/
def execRender (p : RenderParams) (s : State) : Host.Outcome State Fault Refusal :=
  match renderChecked s.cfg p with
  | some b => finish (.buffer b) s
  | none => raise (.invalidPhonemeCode p.p8) s

end Sys2Proof.Machine
end

