-- ==== Sys2Proof/Machine/Scheduler.lean ====
section
/-! DEFINITION. The operations of the scheduler: RESET, IACK, ADVANCE (41_scheduler.md R172, R178, R181). -/

namespace Sys2Proof.Machine

/-- `RESET` (R181). The sink is not touched (D47). -/
def execReset (s : State) : Host.Outcome State Fault Refusal :=
  finish .nothing { s with chip := resetChip s.chip }

/-- `IACK` (R178). -/
def execIack (s : State) : Host.Outcome State Fault Refusal := finish .nothing (acknowledge s)

/-- `ADVANCE n` (R172): add, then fire the interrupt if its target is reached; refused at overflow (R176). -/
def execAdvance (n : Nat) (s : State) : Host.Outcome State Fault Refusal :=
  if 2 ^ s.cfg.cycleW ≤ s.chip.cyc + n then .refused .cycleOverflow
  else finish .nothing { s with chip := fireIfDue { s.chip with cyc := s.chip.cyc + n } }

end Sys2Proof.Machine
end

