-- ==== Sys2Proof/Machine/Dispatch.lean ====
section
/-! DEFINITION. One arm per operation (30_encoding.md R100). -/

namespace Sys2Proof.Machine

/-- The meaning of one operation. -/
def exec (i : Instr) (s : State) : Host.Outcome State Fault Refusal :=
  match i with
  -- register bus
  | .wrDurphon d => Sys2Proof.Machine.execWrDurphon d s
  | .wrInfl d => Sys2Proof.Machine.execWrInfl d s
  | .wrRateinf d => Sys2Proof.Machine.execWrRateinf d s
  | .wrCtlartamp d => Sys2Proof.Machine.execWrCtlartamp d s
  | .wrFilter d => Sys2Proof.Machine.execWrFilter d s
  | .wrInvalid a d => Sys2Proof.Machine.execWrInvalid a d s
  | .rdStatus => Sys2Proof.Machine.execRdStatus s
  | .rdInvalid a => Sys2Proof.Machine.execRdInvalid a s
  -- scheduler
  | .reset => Sys2Proof.Machine.execReset s
  | .iack => Sys2Proof.Machine.execIack s
  | .advance n => Sys2Proof.Machine.execAdvance n s
  -- audio sink and renderer
  | .pull => Sys2Proof.Machine.execPull s
  | .start devOk => Sys2Proof.Machine.execStart devOk s
  | .stop => Sys2Proof.Machine.execStop s
  | .render p => Sys2Proof.Machine.execRender p s
  | .enq b => Sys2Proof.Machine.execEnq b s

end Sys2Proof.Machine
end

