-- ==== Sys2Proof/Machine/Step.lean ====
section
/-! DEFINITION. One step of the core: the next command of the total order is decoded and performed. -/

namespace Sys2Proof.Machine

/-- One step (20_memory.md R80, R81). With no command waiting the core is idle: the chip and the renderer have no step of
their own (00_scope.md R8, log 3). A command that names no operation is refused before anything else (60_exceptions.md
R265); under an ill-formed configuration no operation is ever run (R7, U9, log 11). -/
def step (s : State) : Host.Outcome State Fault Refusal :=
  match s.cmds with
  | [] => .next s
  | c :: rest =>
    match decode c with
    | .error why => .refused (.illegalCommand why)
    | .ok i =>
      if configOk s.cfg then
        match exec i { s with cmds := rest } with
        | .next t => .next (afterOp i t)
        | .fault f => .fault f
        | .refused r => .refused r
      else .refused .badConfig

/-- `s` with the command of a table word as the next one to be performed (log 3, log 17). -/
def State.withFetchWord (s : State) (nbits w : Nat) : State :=
  { s with cmds := commandOfTableWord nbits w :: s.cmds }

end Sys2Proof.Machine
end

