-- ==== Sys2Proof/Machine/Assembler.lean ====
section
/-! DEFINITION. The assembler spellings of the register accesses and the pseudo-instructions (30_encoding.md R117, R118).
Each operand is a number of any size and is cut to its field's width before it is placed (R118, R107). -/

namespace Sys2Proof.Machine

/-- `WR a, d`. A value above 255 is taken mod 256 (R107). -/
def asmWr (a : BitVec 3) (d : Nat) : Command := ⟨cmdWord 0x0 a (BitVec.ofNat 8 d), .none⟩

/-- `RD a`. -/
def asmRd (a : BitVec 3) : Command := ⟨cmdWord 0x1 a 0, .none⟩

/-- `WR_DURPHON dm, ph`. -/
def asmWrDurphon (dm ph : Nat) : List Command := [asmWr 0 (dm % 4 * 64 + ph % 64)]

/-- `WR_INFL b`. -/
def asmWrInfl (b : Nat) : List Command := [asmWr 1 b]

/-- `WR_RATEINF rate, i11, i20`. -/
def asmWrRateinf (rate i11 i20 : Nat) : List Command := [asmWr 2 (rate % 16 * 16 + i11 % 2 * 8 + i20 % 8)]

/-- `WR_CTLARTAMP ctl, art, amp`. -/
def asmWrCtlartamp (ctl art amp : Nat) : List Command := [asmWr 3 (ctl % 2 * 128 + art % 8 * 16 + amp % 16)]

/-- `WR_FILTER ff`. -/
def asmWrFilter (ff : Nat) : List Command := [asmWr 4 ff]

/-- `SETINF rate, i`: two writes, neither of which plays. -/
def asmSetinf (rate i : Nat) : List Command :=
  [asmWr 1 (i / 8 % 256), asmWr 2 (rate % 16 * 16 + i / 2048 % 2 * 8 + i % 8)]

/-- `RD_STATUS`. -/
def asmRdStatus : List Command := [asmRd 0]

end Sys2Proof.Machine
end

