-- ==== Sys2Proof/Machine/Ports.lean ====
section
/-! DEFINITION. The output ports of 30_encoding.md R119 as views of the state. Informative in the spec, so no meaning reads
them. -/

namespace Sys2Proof.Machine

/-- `IRQ`, the interrupt line. -/
def portIrq (s : State) : Bool := s.chip.irq

/-- `DOUT`, the status byte, when the operation just performed was RD_STATUS. -/
def portDout (s : State) : Option Byte :=
  match s.out with
  | .status b => some b
  | _ => none

/-- `FLT`, the fault code of the operation just performed, 0 for none. -/
def portFlt (s : State) : BitVec 2 :=
  match s.out with
  | .fault f => BitVec.ofNat 2 (faultCode f)
  | _ => 0

/-- `FULL`, the result of the enqueue just performed, on the direct port or inside a play event, which drives the same port.
An operation that enqueues nothing leaves the port as it is (log 24). -/
def portFull (s : State) : Bool := s.enqFull

/-- `BLK` and `UNDERRUN`, the block of the PULL just performed. -/
def portBlk (s : State) : Option Block :=
  match s.out with
  | .block b => some b
  | _ => none

end Sys2Proof.Machine
end

