-- ==== Sys2Proof/Safety.lean ====
section
/-! DEFINITION. The terms in which claims about the core are stated: its invariants (10_state.md R34, 43_audio_queue.md
R247), the life of the interrupt (60_exceptions.md R269), what a play event leaves (41_scheduler.md R166), the samples
still to deliver, runs of operations, and safe runs. -/

namespace Sys2Proof.Machine

/-! ## Invariants -/

/-- The invariants of the chip state (R34 (a), (b), (d); (c) is about a step). -/
structure ChipInv (cfg : Config) (c : Chip) : Prop where
  spk_iff_pend : c.spk = true ↔ c.pend ≠ none
  pend_irq : c.pend ≠ none → c.irq = false
  cyc_width : c.cyc < 2 ^ cfg.cycleW
  pend_width : ∀ target, c.pend = some target → target < 2 ^ cfg.cycleW

/-- The invariants of the sink state (R247 (a) to (c)). -/
structure SinkInv (cfg : Config) (k : Sink) : Prop where
  bounded : k.q.length ≤ cfg.queueDepth
  hpos_empty : k.q = [] → k.hpos = 0
  hpos_head : ∀ b rest, k.q = b :: rest → k.hpos ≤ b.pcm.length ∧ (k.hpos = b.pcm.length → b.pcm = [])
  noop_empty : k.mode = .noop → k.q = []

/-- The invariant of the whole state. -/
def Inv (s : State) : Prop := ChipInv s.cfg s.chip ∧ SinkInv s.cfg s.sink

/-- No operation of the run that led to `s` ended in a fault (93_implementation_defined.md U1). -/
def Safe (s : State) : Prop := s.faulted = false

/-! ## Play events -/

/-- When an operation runs a play event: the table of 40_register_bus.md R137. -/
def playsOn (i : Instr) (s : State) : Bool :=
  match i with
  | .wrDurphon _ => !s.chip.ctl
  | .wrCtlartamp d => s.chip.ctl && !d.getLsbD 7
  | .wrInfl _ => false
  | .wrRateinf _ => false
  | .wrFilter _ => false
  | .wrInvalid _ _ => false
  | .rdStatus => false
  | .rdInvalid _ => false
  | .reset => false
  | .iack => false
  | .advance _ => false
  | .pull => false
  | .start _ => false
  | .stop => false
  | .render _ => false
  | .enq _ => false

/-- The registers a playing write leaves before its play event reads them (R130 step 2): the fields of the data byte. -/
def registersOf (i : Instr) (c : Chip) : Chip :=
  match i with
  | .wrDurphon d => { c with dm := d.extractLsb' 6 2, ph := d.extractLsb' 0 6 }
  | .wrCtlartamp d => { c with ctl := d.getLsbD 7, art := d.extractLsb' 4 3, amp := d.extractLsb' 0 4 }
  | .wrInfl _ => c
  | .wrRateinf _ => c
  | .wrFilter _ => c
  | .wrInvalid _ _ => c
  | .rdStatus => c
  | .rdInvalid _ => c
  | .reset => c
  | .iack => c
  | .advance _ => c
  | .pull => c
  | .start _ => c
  | .stop => c
  | .render _ => c
  | .enq _ => c

/-- The cycle at which a play event of chip `c` schedules its interrupt (41_scheduler.md R160, R162, R166). -/
def playTarget (cfg : Config) (c : Chip) : Nat :=
  c.cyc + ((16 - c.rate.toNat) * 4096 / 1023) * (4 - c.dm.toNat) * cfg.clockHz / 1000

/-- The queue takes a buffer (43_audio_queue.md R231): the sink is not on its no-op path and there is room. -/
def queueTakes (cfg : Config) (k : Sink) : Bool := decide (k.mode ≠ .noop) && decide (k.q.length ≠ cfg.queueDepth)

/-- The queue answers FULL (R231). -/
def queueFull (cfg : Config) (k : Sink) : Bool := decide (k.mode ≠ .noop) && decide (k.q.length = cfg.queueDepth)

/-- `t` is the state after `PLAY()` started in `s` (R166), every element written out; the port `FULL` shows what its ENQ
answered (30_encoding.md R119, log 24). -/
structure PlayedFrom (s t : State) : Prop where
  chip : t.chip =
    { s.chip with
      spk := true
      irq := false
      pend := some (playTarget s.cfg s.chip)
      log := s.chip.log ++ (if s.chip.irq then [.irqDeassert] else [])
        ++ [.play s.chip.ph s.chip.dm ((16 - s.chip.rate.toNat) * 4096 / 1023 * (4 - s.chip.dm.toNat))]
        ++ (if queueFull s.cfg s.sink then [.drop] else []) }
  sink : t.sink =
    { s.sink with
      q := s.sink.q ++
        (if queueTakes s.cfg s.sink then
          [renderBuffer s.cfg
            ⟨s.chip.ph.setWidth 8, s.chip.dm, s.chip.rate, s.chip.inf, s.chip.amp, s.chip.ff⟩]
        else []) }
  cfg : t.cfg = s.cfg
  cmds : t.cmds = s.cmds
  out : t.out = .nothing
  faulted : t.faulted = s.faulted
  enqFull : t.enqFull = queueFull s.cfg s.sink

/-- The number of play events in a log. -/
def playCount (log : List Event) : Nat :=
  (log.filter fun e => match e with
    | .play _ _ _ => true
    | .irqDeassert => false
    | .irqAssert => false
    | .drop => false).length

/-! ## The interrupt -/

/-- The three states of the interrupt (R269). -/
inductive IrqPhase where
  | idle
  | scheduled
  | asserted
deriving DecidableEq, Repr

/-- The phase that `PEND`, `SPK` and `IRQ` spell, if they spell one (R269). -/
def irqPhase (c : Chip) : Option IrqPhase :=
  match c.pend, c.spk, c.irq with
  | none, false, false => some .idle
  | some _, true, false => some .scheduled
  | none, false, true => some .asserted
  | _, _, _ => none

/-- The operation is an ADVANCE that reaches the pending target (41_scheduler.md R172). -/
def firesOn (i : Instr) (s : State) : Bool :=
  match i, s.chip.pend with
  | .advance n, some target => decide (target ≤ s.chip.cyc + n)
  | _, _ => false

/-- The table of R269: the phase after an operation that completes. -/
def nextPhase (i : Instr) (s : State) (p : IrqPhase) : IrqPhase :=
  if playsOn i s then .scheduled
  else
    match p with
    | .idle => .idle
    | .scheduled =>
      if i = .reset then .idle
      else if firesOn i s then .asserted
      else .scheduled
    | .asserted => if i = .iack ∨ i = .reset then .idle else .asserted

/-- The level of the line after a sequence of events, if each event is a change of the level it meets (R33). -/
def lineAfter (level : Bool) : List Event → Option Bool
  | [] => some level
  | .irqAssert :: es => if level then none else lineAfter true es
  | .irqDeassert :: es => if level then lineAfter false es else none
  | .play _ _ _ :: es => lineAfter level es
  | .drop :: es => lineAfter level es

/-! ## The queue -/

/-- The samples still to be delivered, in order (R236). -/
def pendingSamples (k : Sink) : List Sample := (k.q.flatMap fun b => b.pcm).drop k.hpos

/-- The samples of the buffer that an operation started in `s` adds to the queue. -/
def acceptedBy (i : Instr) (s : State) : List Sample :=
  if queueTakes s.cfg s.sink then
    match i with
    | .enq b => b.pcm
    | .wrDurphon _ => if playsOn i s then (renderBuffer s.cfg (playParams (registersOf i s.chip))).pcm else []
    | .wrCtlartamp _ => if playsOn i s then (renderBuffer s.cfg (playParams (registersOf i s.chip))).pcm else []
    | .wrInfl _ => []
    | .wrRateinf _ => []
    | .wrFilter _ => []
    | .wrInvalid _ _ => []
    | .rdStatus => []
    | .rdInvalid _ => []
    | .reset => []
    | .iack => []
    | .advance _ => []
    | .pull => []
    | .start _ => []
    | .stop => []
    | .render _ => []
  else []

/-- The samples that a PULL from `s` to `t` delivered, the zeros of an underrun taken out: of the block it returned, as many
as there were to deliver. -/
def deliveredBy (i : Instr) (s t : State) : List Sample :=
  match i, t.out with
  | .pull, .block b => b.samples.take (pendingSamples s.sink).length
  | _, _ => []

/-- The operation empties the queue: a STOP that stops, or a START that fails (R240, R244). -/
def discards (i : Instr) (s : State) : Bool :=
  match i with
  | .stop => decide (s.sink.mode ≠ .stopped)
  | .start devOk => decide (s.sink.mode = .stopped) && !devOk
  | .wrDurphon _ => false
  | .wrInfl _ => false
  | .wrRateinf _ => false
  | .wrCtlartamp _ => false
  | .wrFilter _ => false
  | .wrInvalid _ _ => false
  | .rdStatus => false
  | .rdInvalid _ => false
  | .reset => false
  | .iack => false
  | .advance _ => false
  | .pull => false
  | .render _ => false
  | .enq _ => false

/-! ## Runs -/

/-- The operations of a list in their order, stopping at the first that does not complete (20_memory.md R81). -/
def runOps : List Instr → State → Host.Outcome State Fault Refusal
  | [], s => .next s
  | i :: is, s =>
    match exec i s with
    | .next t => runOps is t
    | .fault f => .fault f
    | .refused r => .refused r

/-- A run in which nothing is discarded: the samples delivered, the samples accepted and the end state; `none` if an
operation does not complete or discards (R247 (e)). -/
def fifoRun : List Instr → State → Option (List Sample × List Sample × State)
  | [], s => some ([], [], s)
  | i :: is, s =>
    if discards i s then none
    else
      match exec i s with
      | .next t =>
        match fifoRun is t with
        | some (d, a, u) => some (deliveredBy i s t ++ d, acceptedBy i s ++ a, u)
        | none => none
      | .fault _ => none
      | .refused _ => none

/-- The operations of agent H in a run, in their order (R81). -/
def hostOps (is : List Instr) : List Instr := is.filter fun i => decide (agentOf i = .host)

/-- The chip as every interleaving of the audio agent shows it: the log without its DROP events
(70_reset_and_hazards.md R321). -/
def chipView (c : Chip) : Chip := { c with log := c.log.filter fun e => decide (e ≠ .drop) }

/-! ## Illegal commands -/

/-- The extension operand has the type that `CMD[15:12]` fixes (30_encoding.md R90, R93 to R99). -/
def extFits (op : Nat) (e : Ext) : Bool :=
  match e with
  | .none => decide (op ≠ 0x4 ∧ op ≠ 0x8 ∧ op ≠ 0x9)
  | .cycles _ => decide (op = 0x4)
  | .rpw _ => decide (op = 0x8)
  | .buffer _ => decide (op = 0x9)

/-- The command is none of the illegal ones of R108, case by case, over the numbers of the fields of `CMD`. -/
structure LegalCommand (c : Command) : Prop where
  op_assigned : c.cmd.toNat / 2 ^ 12 < 0xA
  z_zero : c.cmd.toNat / 2 ^ 11 % 2 = 0
  read_data_zero : c.cmd.toNat / 2 ^ 12 = 0x1 → c.cmd.toNat % 2 ^ 8 = 0
  start_field_zero : c.cmd.toNat / 2 ^ 12 = 0x6 → c.cmd.toNat / 2 % 2 ^ 11 = 0
  field_zero : 0x2 ≤ c.cmd.toNat / 2 ^ 12 → c.cmd.toNat / 2 ^ 12 ≠ 0x6 → c.cmd.toNat % 2 ^ 12 = 0
  ext_fits : extFits (c.cmd.toNat / 2 ^ 12) c.ext = true

end Sys2Proof.Machine
end

