-- ==== Sys2Proof/Certificates/Slice0/Obligations.lean ====
section
/-! DEFINITION. The statements about the core. Each names the rule of spec/ it formalises; a statement that rests on an
inference or a decision the spec marks as its own, or on a choice of the model, says so. Where a statement writes a next state
in full, what it says of the four fields of the model's own (`cmds`, `out`, `faulted`, `enqFull`) is the form of logs 3, 4, 5
and 24. -/

open Sys2Proof Sys2Proof.Machine

/-! ## Encoding -/

/-- Every operand of every operation at every value survives encoding and decoding (30_encoding.md sections 1 to 3 and 6). -/
def Obligations.DecodeOfEncodeIsIdentity : Prop :=
  ∀ i : Instr, i.wf = true → decode (encode i) = .ok i

/-- Each command that decodes is the one encoding of a well-formed operation, so no must-be-zero bit is ignored. -/
def Obligations.EncodeOfDecodeIsIdentity : Prop :=
  ∀ (c : Command) (i : Instr), decode c = .ok i → i.wf = true ∧ encode i = c

/-- R108: a step refuses its command as illegal exactly when the command is one of the cases (a) to (f). -/
def Obligations.StepRefusesExactlyIllegalCommands : Prop :=
  ∀ (s : State) (c : Command) (rest : List Command), s.cmds = c :: rest →
    ((∃ why, step s = .refused (.illegalCommand why)) ↔ ¬ LegalCommand c)

/-- R93, R100: the sixteen words of one command each, written out from the formats. -/
def Obligations.WordsDecodeToTheirOperations : Prop :=
  decode ⟨0b0000_0_000_11_000101, .none⟩ = .ok (.wrDurphon 0xC5)
  ∧ decode ⟨0b0000_0_001_11111111, .none⟩ = .ok (.wrInfl 0xFF)
  ∧ decode ⟨0b0000_0_010_1100_1_000, .none⟩ = .ok (.wrRateinf 0xC8)
  ∧ decode ⟨0b0000_0_011_0_000_1111, .none⟩ = .ok (.wrCtlartamp 0x0F)
  ∧ decode ⟨0b0000_0_100_11111111, .none⟩ = .ok (.wrFilter 0xFF)
  ∧ decode ⟨0b0000_0_101_00010010, .none⟩ = .ok (.wrInvalid 5 0x12)
  ∧ decode ⟨0b0001_0_000_00000000, .none⟩ = .ok .rdStatus
  ∧ decode ⟨0b0001_0_011_00000000, .none⟩ = .ok (.rdInvalid 3)
  ∧ decode ⟨0b0010_000000000000, .none⟩ = .ok .reset
  ∧ decode ⟨0b0011_000000000000, .none⟩ = .ok .iack
  ∧ decode ⟨0b0100_000000000000, .cycles 64⟩ = .ok (.advance 64)
  ∧ decode ⟨0b0101_000000000000, .none⟩ = .ok .pull
  ∧ decode ⟨0b0110_00000000000_1, .none⟩ = .ok (.start true)
  ∧ decode ⟨0b0111_000000000000, .none⟩ = .ok .stop
  ∧ decode ⟨0b1000_000000000000, .rpw 0x00FC800F00⟩ = .ok (.render ⟨3, 3, 12, 2048, 15, 0⟩)
  ∧ decode ⟨0b1001_000000000000, .buffer ⟨[1 / 2], 4⟩⟩ = .ok (.enq ⟨[1 / 2], 4⟩)

/-- The six fields of the render parameter word (R111), and what a phoneme field in 64..255 leads to: that the fault is the
result of a next state in which nothing else changes is R262, and the flag it sets is the model's choice (log 5, from U1). -/
def Obligations.RenderParameterWordFields : Prop :=
  ∀ (w : RpwWord) (s : State), ∃ p : RenderParams,
    decode ⟨0x8000, .rpw w⟩ = .ok (.render p)
    ∧ p.p8.toNat = w.toNat / 2 ^ 30
    ∧ p.dm.toNat = w.toNat / 2 ^ 28 % 4
    ∧ p.rate.toNat = w.toNat / 2 ^ 24 % 16
    ∧ p.inf.toNat = w.toNat / 2 ^ 12 % 4096
    ∧ p.amp.toNat = w.toNat / 2 ^ 8 % 16
    ∧ p.ff.toNat = w.toNat % 256
    ∧ (64 ≤ p.p8.toNat →
        exec (.render p) s = .next { s with out := .fault (.invalidPhonemeCode p.p8), faulted := true })

/-! ## One step -/

/-- R80, R81: a step performs the next command of the total order; what follows the operation is only the acknowledge that
the configuration may ask for (U3, log 9), which is nothing under the spec's default. -/
def Obligations.StepRunsDecodedOperation : Prop :=
  ∀ (s : State) (c : Command) (rest : List Command) (i : Instr),
    s.cmds = c :: rest → decode c = .ok i → configOk s.cfg = true →
    (∀ t, exec i { s with cmds := rest } = .next t →
      step s = .next (if acksAfter s.cfg i then { t with chip := deassertIrq t.chip } else t))
    ∧ (∀ r, exec i { s with cmds := rest } = .refused r → step s = .refused r)
    ∧ (s.cfg.acks = [] → step s = exec i { s with cmds := rest })

/-- The model's choice (log 3): with no command waiting a step changes nothing. Rests on R8: the chip and the renderer have
no step of their own. -/
def Obligations.IdleStepChangesNothing : Prop := ∀ s : State, s.cmds = [] → step s = .next s

/-- R7: a configuration that breaks a constraint of R6 is refused whatever legal command comes next. -/
def Obligations.IllFormedConfigurationIsRefused : Prop :=
  ∀ (s : State) (c : Command) (rest : List Command), s.cmds = c :: rest → LegalCommand c →
    (s.cfg.clockHz = 0 ∨ s.cfg.fs = 0 ∨ s.cfg.queueDepth = 0 ∨ s.cfg.blockSize = 0 ∨ s.cfg.table.length ≠ 62
      ∨ (∃ e ∈ s.cfg.table, s.cfg.pcm.length < e.offset + e.length)
      ∨ (∃ v ∈ s.cfg.pcm, v < -2 ^ (s.cfg.sampleW - 1) ∨ 2 ^ (s.cfg.sampleW - 1) ≤ v)) →
    step s = .refused .badConfig

/-- R7: no step changes the configuration, and each takes at most one command. -/
def Obligations.StepKeepsConfiguration : Prop :=
  ∀ s t : State, step s = .next t → t.cfg = s.cfg ∧ t.cmds = s.cmds.tail

/-- No operation stops the machine with a fault: the model's choice (log 5), which follows R262 (the next operation proceeds
normally) where U1 also allows stopping at the first fault. Each operation completes unless it is an overflow (R176) or a
PULL while not running (R238). The commands still to come and the configuration are untouched. -/
def Obligations.OperationsCompleteUnlessRefused : Prop :=
  ∀ (i : Instr) (s : State),
    (∀ f : Fault, exec i s ≠ .fault f)
    ∧ ((∀ n, i = .advance n → s.chip.cyc + n < 2 ^ s.cfg.cycleW) →
      (playsOn i s = true → playTarget s.cfg (registersOf i s.chip) < 2 ^ s.cfg.cycleW) →
      (i = .pull → s.sink.mode = .running) →
      ∃ t, exec i s = .next t ∧ t.cfg = s.cfg ∧ t.cmds = s.cmds)

/-! ## Register bus -/

/-- R131, R166: a write to address 0 stores and, in ACTIVE, plays with the fields just stored. The clause of
`PlayedFrom` on the port `FULL` is the model's choice (log 24, from R119). -/
def Obligations.WriteDurphonStoresThenPlaysIfActive : Prop :=
  ∀ (d : Byte) (s : State),
    let c := { s.chip with dm := d.extractLsb' 6 2, ph := d.extractLsb' 0 6 }
    (s.chip.ctl = true → exec (.wrDurphon d) s = .next { s with chip := c, out := .nothing })
    ∧ (s.chip.ctl = false → playTarget s.cfg c < 2 ^ s.cfg.cycleW →
        ∃ t, exec (.wrDurphon d) s = .next t ∧ PlayedFrom { s with chip := c } t)
    ∧ (s.chip.ctl = false → 2 ^ s.cfg.cycleW ≤ playTarget s.cfg c →
        exec (.wrDurphon d) s = .refused .cycleOverflow)

/-- R134, R166: a write to address 3 stores its three fields and plays on the transition from STANDBY to ACTIVE only, with
the new amplitude. The clause of `PlayedFrom` on the port `FULL` is the model's choice (log 24, from R119). -/
def Obligations.WriteCtlartampPlaysOnWakeUpOnly : Prop :=
  ∀ (d : Byte) (s : State),
    let c := { s.chip with ctl := d.getLsbD 7, art := d.extractLsb' 4 3, amp := d.extractLsb' 0 4 }
    (¬ (s.chip.ctl = true ∧ d.getLsbD 7 = false) →
        exec (.wrCtlartamp d) s = .next { s with chip := c, out := .nothing })
    ∧ (s.chip.ctl = true → d.getLsbD 7 = false → playTarget s.cfg c < 2 ^ s.cfg.cycleW →
        ∃ t, exec (.wrCtlartamp d) s = .next t ∧ PlayedFrom { s with chip := c } t)
    ∧ (s.chip.ctl = true → d.getLsbD 7 = false → 2 ^ s.cfg.cycleW ≤ playTarget s.cfg c →
        exec (.wrCtlartamp d) s = .refused .cycleOverflow)

/-- R132, R133, R135: writes to addresses 1, 2 and 4 replace exactly their own bits and change nothing else, in either power
state. -/
def Obligations.PlainWritesReplaceOnlyTheirBits : Prop :=
  ∀ (d : Byte) (s : State),
    (∃ v : BitVec 12,
      exec (.wrInfl d) s = .next { s with chip := { s.chip with inf := v }, out := .nothing }
      ∧ v.extractLsb' 3 8 = d
      ∧ v.getLsbD 11 = s.chip.inf.getLsbD 11 ∧ v.extractLsb' 0 3 = s.chip.inf.extractLsb' 0 3)
    ∧ (∃ (r : BitVec 4) (v : BitVec 12),
      exec (.wrRateinf d) s = .next { s with chip := { s.chip with rate := r, inf := v }, out := .nothing }
      ∧ r.toNat = d.toNat / 16
      ∧ v.getLsbD 11 = d.getLsbD 3 ∧ v.extractLsb' 0 3 = d.extractLsb' 0 3
      ∧ v.extractLsb' 3 8 = s.chip.inf.extractLsb' 3 8)
    ∧ exec (.wrFilter d) s = .next { s with chip := { s.chip with ff := d }, out := .nothing }

/-- R106: the inflection is assembled from the bytes last written to addresses 1 and 2, in either order of the writes, and
nothing but RATE and INF changes. -/
def Obligations.InflectionIsAssembledFromTwoWrites : Prop :=
  ∀ (d1 d2 : Byte) (s : State),
    let inf : BitVec 12 := d2.extractLsb' 3 1 ++ d1 ++ d2.extractLsb' 0 3
    let u : State := { s with chip := { s.chip with inf := inf, rate := d2.extractLsb' 4 4 }, out := .nothing }
    inf.toNat = d2.toNat / 8 % 2 * 2048 + d1.toNat * 8 + d2.toNat % 8
    ∧ (∃ t, exec (.wrInfl d1) s = .next t ∧ exec (.wrRateinf d2) t = .next u)
    ∧ (∃ t, exec (.wrRateinf d2) s = .next t ∧ exec (.wrInfl d1) t = .next u)

/-- R118, the pseudo-instruction SETINF (a decision of the spec, D43): its two writes leave INF and RATE at the operands cut to
their widths. -/
def Obligations.SetinfSetsInflectionAndRate : Prop :=
  ∀ (rate inf : Nat) (s : State), s.cmds = asmSetinf rate inf → configOk s.cfg = true → s.cfg.acks = [] →
    ∃ t, step s = .next t ∧
      step t = .next
        { s with
          chip := { s.chip with inf := BitVec.ofNat 12 inf, rate := BitVec.ofNat 4 rate }
          cmds := []
          out := .nothing }

/-- R136, R139, R262: an access to an invalid address faults with code 1, the address and the direction, changes no state
element and emits no event. The read's fault is a decision of the spec (D4); that the machine goes on with the fault as the
operation's result is R262, and that the fault sets the run-level flag is the model's choice (log 5, from U1). -/
def Obligations.InvalidRegisterAddressFaults : Prop :=
  ∀ (a : BitVec 3) (d : Byte) (s : State),
    exec (.wrInvalid a d) s = .next { s with out := .fault (.invalidRegisterAddress a .write), faulted := true }
    ∧ exec (.rdInvalid a) s = .next { s with out := .fault (.invalidRegisterAddress a .read), faulted := true }
    ∧ (∀ dir, faultCode (.invalidRegisterAddress a dir) = 1)
    ∧ (5 ≤ a.toNat → decode ⟨0#5 ++ a ++ d, .none⟩ = .ok (.wrInvalid a d))
    ∧ (1 ≤ a.toNat → decode ⟨2#5 ++ a ++ 0#8, .none⟩ = .ok (.rdInvalid a))

/-- R138: the status read returns 0x80 while speaking and 0x00 otherwise, and changes nothing. Bit 7 is the spec's layout
(D5), which is the premise on the configuration (log 10). -/
def Obligations.StatusReadReturnsSpeakingBit : Prop :=
  ∀ s : State, s.cfg.statusSpkBit = 7 →
    exec .rdStatus s = .next { s with out := .status (if s.chip.spk then 0x80 else 0x00) }

/-- R140: what an operation of the register bus returns does not depend on any control register. -/
def Obligations.RegisterBusReturnsNoRegister : Prop :=
  ∀ (i : Instr) (s s' t t' : State),
    (busOpOf i ≠ none ∨ (∃ a d, i = .wrInvalid a d) ∨ ∃ a, i = .rdInvalid a) →
    s.cfg = s'.cfg → s.chip.spk = s'.chip.spk → exec i s = .next t → exec i s' = .next t' →
    t.out = t'.out

/-- R137 (an inference of the spec): one play event is logged by a write to address 0 in ACTIVE and by a wake-up, and by no
other operation. -/
def Obligations.PlayEventsAreTriggeredExactlyByTheTable : Prop :=
  ∀ (i : Instr) (s t : State), exec i s = .next t →
    playCount t.chip.log = playCount s.chip.log + (if playsOn i s then 1 else 0)

/-- R141 (an inference of the spec): what a register write never does. That a write which does not play leaves the port
`FULL` as it was is the model's choice (log 24). -/
def Obligations.RegisterWriteFrame : Prop :=
  ∀ (i : Instr) (d : Byte) (s t : State),
    (i = .wrDurphon d ∨ i = .wrInfl d ∨ i = .wrRateinf d ∨ i = .wrCtlartamp d ∨ i = .wrFilter d) →
    exec i s = .next t →
    t.chip.cyc = s.chip.cyc
    ∧ (t.chip.irq = true → s.chip.irq = true)
    ∧ s.sink.q <+: t.sink.q ∧ t.sink.hpos = s.sink.hpos ∧ t.sink.mode = s.sink.mode
    ∧ (playsOn i s = false →
        t.chip.spk = s.chip.spk ∧ t.chip.pend = s.chip.pend ∧ t.chip.irq = s.chip.irq ∧ t.chip.log = s.chip.log
        ∧ t.sink = s.sink ∧ t.enqFull = s.enqFull)
    ∧ t.faulted = s.faulted

/-- R26 and U6 (the treatment of articulation is the spec's open point U6): no operation's outcome depends on ART. -/
def Obligations.ArticulationHasNoEffect : Prop :=
  ∀ (i : Instr) (s t : State) (a : BitVec 3), exec i s = .next t →
    ∃ t', exec i { s with chip := { s.chip with art := a } } = .next t'
      ∧ { t' with chip := { t'.chip with art := 0 } } = { t with chip := { t.chip with art := 0 } }

/-! ## Scheduler -/

/-- R160, R162 and the inferences R161, R163: the closed form of the duration, its bounds, and that it falls strictly as the
rate or the mode rises, the cycle count not rising for any clock. -/
def Obligations.DurationFallsAsRateOrModeRises : Prop :=
  ∀ (cfg : Config) (rate rate' : BitVec 4) (dm dm' : BitVec 2),
    durationMs rate dm = 4 * (16 - rate.toNat) * (4 - dm.toNat)
    ∧ 4 ≤ durationMs rate dm ∧ durationMs rate dm ≤ 256
    ∧ (rate < rate' → durationMs rate' dm < durationMs rate dm
        ∧ durationCycles cfg (durationMs rate' dm) ≤ durationCycles cfg (durationMs rate dm))
    ∧ (dm < dm' → durationMs rate dm' < durationMs rate dm
        ∧ durationCycles cfg (durationMs rate dm') ≤ durationCycles cfg (durationMs rate dm))

/-- R168: a play event before the pending interrupt fires overwrites its target; the interrupt then fires at the new target
and at no earlier cycle, and once only. -/
def Obligations.RetriggerOverwritesPendingInterrupt : Prop :=
  ∀ (d : Byte) (n m : Nat) (old : Nat) (s t u v : State),
    s.chip.ctl = false → s.chip.pend = some old → s.chip.cyc < old →
    exec (.wrDurphon d) s = .next t → exec (.advance n) t = .next u → exec (.advance m) u = .next v →
    let target := playTarget s.cfg (registersOf (.wrDurphon d) s.chip)
    t.chip.pend = some target ∧ t.chip.irq = false
    ∧ (s.chip.cyc + n < target →
        u.chip.irq = false ∧ u.chip.spk = true ∧ u.chip.pend = some target ∧ u.chip.log = t.chip.log)
    ∧ (target ≤ s.chip.cyc + n →
        u.chip.irq = true ∧ u.chip.spk = false ∧ u.chip.pend = none ∧ u.chip.log = t.chip.log ++ [.irqAssert]
        ∧ v.chip.log = u.chip.log)

/-- R172, R273: ADVANCE is refused at overflow; otherwise it adds to the counter, and fires exactly when the pending target
is reached by the sum. -/
def Obligations.AdvanceFiresWhenTargetReached : Prop :=
  ∀ (n : Nat) (s : State),
    (2 ^ s.cfg.cycleW ≤ s.chip.cyc + n → exec (.advance n) s = .refused .cycleOverflow)
    ∧ (s.chip.cyc + n < 2 ^ s.cfg.cycleW →
      (∀ target, s.chip.pend = some target → target ≤ s.chip.cyc + n →
        exec (.advance n) s = .next
          { s with
            chip :=
              { s.chip with
                cyc := s.chip.cyc + n
                irq := true
                pend := none
                spk := false
                log := s.chip.log ++ [.irqAssert] }
            out := .nothing })
      ∧ ((∀ target, s.chip.pend = some target → s.chip.cyc + n < target) →
        exec (.advance n) s = .next { s with chip := { s.chip with cyc := s.chip.cyc + n }, out := .nothing }))

/-- R173 (an inference of the spec): two consecutive ADVANCEs are one. -/
def Obligations.AdvanceSplits : Prop :=
  ∀ (a b : Nat) (s t : State), exec (.advance a) s = .next t →
    exec (.advance b) t = exec (.advance (a + b)) s

/-- R176 (a decision of the spec, D17): the overflow refusal, of exactly the ADVANCEs and playing writes that would take
the counter or the target to `2^CYCLE_W`. -/
def Obligations.CycleOverflowIsRefusedExactly : Prop :=
  ∀ (i : Instr) (s : State),
    exec i s = .refused .cycleOverflow ↔
      (∃ n, i = .advance n ∧ 2 ^ s.cfg.cycleW ≤ s.chip.cyc + n)
      ∨ (playsOn i s = true ∧ 2 ^ s.cfg.cycleW ≤ playTarget s.cfg (registersOf i s.chip))

/-- R178 (the operation is a decision of the spec, D7): IACK deasserts an asserted line with one event and is otherwise
without effect. -/
def Obligations.IackDeassertsTheLine : Prop :=
  ∀ s : State,
    (s.chip.irq = true →
      exec .iack s = .next
        { s with chip := { s.chip with irq := false, log := s.chip.log ++ [.irqDeassert] }, out := .nothing })
    ∧ (s.chip.irq = false → exec .iack s = .next { s with out := .nothing })

/-- R33, R178 (c), R270: the line is asserted by an ADVANCE that fires only, and leaves that level by IACK, RESET or a play
event only. -/
def Obligations.InterruptLineIsALevel : Prop :=
  ∀ (i : Instr) (s t : State), exec i s = .next t →
    (s.chip.irq = false → t.chip.irq = true → firesOn i s = true)
    ∧ (s.chip.irq = true → t.chip.irq = false → i = .iack ∨ i = .reset ∨ playsOn i s = true)

/-- R30: the speaking flag is set by a play event only, and cleared by the ADVANCE that fires or by RESET only. -/
def Obligations.SpeakingFlagChanges : Prop :=
  ∀ (i : Instr) (s t : State), exec i s = .next t →
    (playsOn i s = true → t.chip.spk = true)
    ∧ (s.chip.spk = false → t.chip.spk = true → playsOn i s = true)
    ∧ (s.chip.spk = true → t.chip.spk = false → firesOn i s = true ∨ i = .reset)

/-- R32: only ADVANCE writes the counter, which it raises by its operand. -/
def Obligations.OnlyAdvanceMovesTheCounter : Prop :=
  ∀ (i : Instr) (s t : State), exec i s = .next t →
    (t.chip.cyc = s.chip.cyc ∧ ∀ n, i ≠ .advance n) ∨ ∃ n, i = .advance n ∧ t.chip.cyc = s.chip.cyc + n

/-- R281: nothing but a write to address 3 or RESET changes the power state. -/
def Obligations.PowerStateChanges : Prop :=
  ∀ (i : Instr) (s t : State), exec i s = .next t →
    t.chip.ctl = s.chip.ctl ∨ (∃ d : Byte, i = .wrCtlartamp d ∧ t.chip.ctl = d.getLsbD 7)
      ∨ (i = .reset ∧ t.chip.ctl = true)

/-- R33, R40: the log is append-only, and the events appended are exactly the changes of the line. The premise is the chip's
invariant (R34), without which an ADVANCE could assert an asserted line. -/
def Obligations.LogRecordsEveryChangeOfTheLine : Prop :=
  ∀ (i : Instr) (s t : State), ChipInv s.cfg s.chip → exec i s = .next t →
    ∃ es, t.chip.log = s.chip.log ++ es ∧ lineAfter s.chip.irq es = some t.chip.irq

/-- R269 (an inference of the spec): the interrupt moves between its three phases as the table says. -/
def Obligations.InterruptPhasesFollowTheTable : Prop :=
  ∀ (i : Instr) (s t : State) (p : IrqPhase), irqPhase s.chip = some p → exec i s = .next t →
    irqPhase t.chip = some (nextPhase i s p)

/-- R181: RESET returns the eight register fields, SPK and PEND to their defaults and deasserts the line; the counter, the
rest of the log and the sink are kept. The values of ART, FF, SPK and IRQ and what is kept are decisions of the spec
(D20, D47). -/
def Obligations.ResetRestoresDefaults : Prop :=
  ∀ s : State,
    exec .reset s = .next
      { s with
        chip :=
          { dm := 0, ph := 0, inf := 0, rate := 0, ctl := true, art := 0, amp := 0, ff := 0, spk := false, pend := none
            cyc := s.chip.cyc
            irq := false
            log := s.chip.log ++ (if s.chip.irq then [.irqDeassert] else []) }
        out := .nothing }

/-- R182 (an inference of the spec): the second of two RESETs changes nothing, the log included. -/
def Obligations.ResetIsIdempotent : Prop :=
  ∀ s t : State, exec .reset s = .next t → exec .reset t = .next t

/-- R183, R49: every configuration's power-on state is one that RESET leaves as it is, with the counter at 0, the log and the
queue empty and the sink stopped; the reset state is the power-on state of a well-formed configuration. -/
def Obligations.PowerOnState : Prop :=
  (∀ cfg : Config,
    exec .reset (State.powerOn cfg) = .next (State.powerOn cfg)
    ∧ (State.powerOn cfg).chip.ctl = true
    ∧ (State.powerOn cfg).chip.cyc = 0 ∧ (State.powerOn cfg).chip.log = []
    ∧ (State.powerOn cfg).sink = ⟨[], 0, .stopped⟩
    ∧ (State.powerOn cfg).cfg = cfg)
  ∧ ∃ cfg : Config, configOk cfg = true ∧ State.reset = State.powerOn cfg

/-! ## Faults -/

/-- R261, R262: the complete list of faults, each leaving every state element as it was; each of the listed operations
faults. That a fault sets the run-level flag is the model's choice (log 5, from U1). -/
def Obligations.FaultListIsComplete : Prop :=
  ∀ (i : Instr) (s t : State), exec i s = .next t →
    (∀ f : Fault, t.out = .fault f →
      t = { s with out := .fault f, faulted := true }
      ∧ ((∃ a d, i = .wrInvalid a d ∧ f = .invalidRegisterAddress a .write ∧ faultCode f = 1)
        ∨ (∃ a, i = .rdInvalid a ∧ f = .invalidRegisterAddress a .read ∧ faultCode f = 1)
        ∨ (∃ p, i = .render p ∧ 63 < p.p8.toNat ∧ f = .invalidPhonemeCode p.p8 ∧ faultCode f = 2)))
    ∧ ((∃ a d, i = .wrInvalid a d) ∨ (∃ a, i = .rdInvalid a) ∨ (∃ p, i = .render p ∧ 63 < p.p8.toNat) →
      ∃ f : Fault, t.out = .fault f)

/-! ## Renderer -/

/-- R190, R191, R197: RENDER returns the buffer of the six stages in their order, stage 4 written out as the averaging and
then the stretch to the target length, with the duration tag, and changes no state element. A phoneme operand above 63
faults first (R192, R262); the flag the fault sets is the model's choice (log 5, from U1). That no play event can meet this
fault is an inference of the spec (R192, from R22). -/
def Obligations.RenderReturnsTheBufferOnly : Prop :=
  ∀ (p : RenderParams) (s : State),
    let ms := (16 - p.rate.toNat) * 4096 / 1023 * (4 - p.dm.toNat)
    (p.p8.toNat ≤ 63 →
      let x3 := filterStage s.cfg (ampScale (lookup s.cfg p.p8) p.amp) p.ff
      let x4 := stretch (average x3 p.dm) (ms * s.cfg.fs / 1000)
      exec (.render p) s = .next { s with out := .buffer ⟨normalize s.cfg (pitch x4 p.inf), ms⟩ })
    ∧ (64 ≤ p.p8.toNat →
      exec (.render p) s = .next { s with out := .fault (.invalidPhonemeCode p.p8), faulted := true })
    ∧ (playParams s.chip).p8.toNat ≤ 63

/-- R193, R64: under a well-formed configuration the lookup reads the table entry of its phoneme, in bounds. -/
def Obligations.LookupReadsItsEntryInBounds : Prop :=
  ∀ (cfg : Config) (p8 : BitVec 8), configOk cfg = true → p8.toNat ≤ 63 →
    (p8 = 0 → lookup cfg p8 = [])
    ∧ (p8 ≠ 0 → ∃ e : TableEntry,
        cfg.table[if p8 = 1 then 0 else p8.toNat - 2]? = some e
        ∧ e.offset + e.length ≤ cfg.pcm.length
        ∧ (lookup cfg p8).length = e.length
        ∧ ∀ k < e.length, ∃ v : Int, cfg.pcm[e.offset + k]? = some v ∧ (lookup cfg p8)[k]? = some (v : Rat))

/-- R195: amplitude scaling is linear in amplitude/15. -/
def Obligations.AmplitudeScalesLinearly : Prop :=
  ∀ (x : List Sample) (amp : BitVec 4),
    (ampScale x amp).length = x.length
    ∧ (∀ i < x.length, (ampScale x amp)[i]? = some (x.getD i 0 * amp.toNat / 15))
    ∧ ampScale x 15 = x
    ∧ ampScale x 0 = zeros x.length

/-- R196: 0xFF is silence of the same length under every filter; under the spec's filter every other value is the identity. -/
def Obligations.FilterSilencesOnlyAtFF : Prop :=
  ∀ (cfg : Config) (x : List Sample) (ff : BitVec 8),
    filterStage cfg x 0xFF = zeros x.length
    ∧ (filterStage cfg x ff).length = x.length
    ∧ (cfg.filt = .identity → ff ≠ 0xFF → filterStage cfg x ff = x)

/-- R198 (the dropped remainder is a decision of the spec, D26): sample averaging by duration mode. -/
def Obligations.AveragingByDurationMode : Prop :=
  ∀ x : List Sample,
    average x 0 = x ∧ average x 1 = x
    ∧ (average x 2).length = x.length / 2 ∧ (average x 3).length = x.length / 4
    ∧ (∀ i < x.length / 2, (average x 2)[i]? = some ((x.getD (2 * i) 0 + x.getD (2 * i + 1) 0) / 2))
    ∧ (∀ i < x.length / 4, (average x 3)[i]? =
        some ((x.getD (4 * i) 0 + x.getD (4 * i + 1) 0 + x.getD (4 * i + 2) 0 + x.getD (4 * i + 3) 0) / 4))

/-- R199, R200 (the method is a decision of the spec, D27, and so is holding the last sample, D28): the stretch has exactly
the target length, and its sample `i` is the interpolation at position `i * len / n`, the interpolation being the formula of
R200. By inference of the spec it is the identity at its own length, starts at the first sample, and stays between any
bounds of its input. -/
def Obligations.StretchHitsTheTargetLength : Prop :=
  ∀ (x : List Sample) (n : Nat),
    (stretch x n).length = n
    ∧ (x = [] → stretch x n = zeros n)
    ∧ (x ≠ [] → ∀ i < n, (stretch x n)[i]? = some (lerp x ((i : Rat) * (x.length : Rat) / (n : Rat))))
    ∧ (∀ (p : Rat) (k : Nat), x ≠ [] → (k : Rat) ≤ p → p < (k : Rat) + 1 →
        lerp x p =
          if k + 1 < x.length then x.getD k 0 * (1 - (p - k)) + x.getD (k + 1) 0 * (p - k)
          else x.getD (x.length - 1) 0)
    ∧ (x.length = n → stretch x n = x)
    ∧ (∀ v, x.head? = some v → 0 < n → (stretch x n).head? = some v)
    ∧ (∀ lo hi : Rat, x ≠ [] → (∀ v ∈ x, lo ≤ v ∧ v ≤ hi) → ∀ v ∈ stretch x n, lo ≤ v ∧ v ≤ hi)

/-- R203 and the inference R204 (the output length is a decision of the spec, D29): neutral inflection is the identity, the
output has as many samples as there are positions not beyond the last sample, and it starts at the first sample. -/
def Obligations.PitchStageLengthAndNeutral : Prop :=
  ∀ (x : List Sample) (inf : BitVec 12),
    pitch x 2048 = x
    ∧ (x = [] → pitch x inf = [])
    ∧ (x ≠ [] → ∀ j : Nat, j < (pitch x inf).length ↔
        ((j : Rat) * (1 + ((inf.toNat : Rat) - 2048) / 4096) ≤ (x.length : Rat) - 1))
    ∧ (∀ j < (pitch x inf).length, (pitch x inf)[j]? = some (lerp x ((j : Rat) * (1 + ((inf.toNat : Rat) - 2048) / 4096))))
    ∧ (pitch x inf).head? = x.head?

/-- R211 (an inference of the spec): the length of a rendered buffer, which depends on neither the phoneme, the amplitude,
the filter nor the library. -/
def Obligations.RenderedLength : Prop :=
  ∀ (cfg : Config) (p : RenderParams),
    let n := 4 * (16 - p.rate.toNat) * (4 - p.dm.toNat) * cfg.fs / 1000
    (renderBuffer cfg p).pcm.length = if n = 0 then 0 else (n - 1) * 4096 / (2048 + p.inf.toNat) + 1

/-- R208 (an inference of the spec from the source's three cases): amplitude 0, filter 0xFF and phoneme 0 each give an
all-zero buffer, under every filter and every quantiser the configuration may hold. -/
def Obligations.SilenceCases : Prop :=
  ∀ (cfg : Config) (p : RenderParams), p.amp = 0 ∨ p.ff = 0xFF ∨ p.p8 = 0 →
    (renderBuffer cfg p).pcm = zeros (renderBuffer cfg p).pcm.length

/-- R194 (b): RENDER gives phonemes 1 and 2 equal buffers under every other operand and every configuration. -/
def Obligations.PhonemeOneIsAnAliasOfTwo : Prop :=
  ∀ (p : RenderParams) (s : State), exec (.render { p with p8 := 1 }) s = exec (.render { p with p8 := 2 }) s

/-- R206: the last stage keeps the length and gives `FQ(x5[j] / 2^(SAMPLE_W-1))` (full scale and exactness are decisions of
the spec, D30 and D24), `FQ` being the identity by default; and, an inference of the spec, with the spec's filter and
quantiser every sample of a rendered buffer lies in [-1, 1). -/
def Obligations.RenderedSamplesAreInUnitRange : Prop :=
  (∀ (cfg : Config) (x5 : List Sample),
    (normalize cfg x5).length = x5.length
    ∧ (∀ j < x5.length,
        (normalize cfg x5)[j]? = some (quantise cfg.fq (x5.getD j 0 / (2 : Rat) ^ (cfg.sampleW - 1))))
    ∧ (∀ v : Sample, quantise .identity v = v))
  ∧ ∀ (cfg : Config) (p : RenderParams), configOk cfg = true → cfg.filt = .identity → cfg.fq = .identity →
    ∀ v ∈ (renderBuffer cfg p).pcm, -1 ≤ v ∧ v < 1

/-! ## Audio queue -/

/-- R231: the three cases of ENQ. Accepting while stopped is a decision of the spec (D38). `enqFull` is the port `FULL` of
R119 (log 24). That every buffer is taken, whatever its samples, is the model's choice where a sample lies outside the range
R38 gives (log 23). -/
def Obligations.EnqueueAppendsOrAnswersFull : Prop :=
  ∀ (b : Buffer) (s : State),
    (s.sink.mode = .noop → exec (.enq b) s = .next { s with out := .enq .ok, enqFull := false })
    ∧ (s.sink.mode ≠ .noop → s.sink.q.length = s.cfg.queueDepth →
        exec (.enq b) s = .next { s with out := .enq .full, enqFull := true })
    ∧ (s.sink.mode ≠ .noop → s.sink.q.length ≠ s.cfg.queueDepth →
        exec (.enq b) s = .next
          { s with sink := { s.sink with q := s.sink.q ++ [b] }, out := .enq .ok, enqFull := false })
    ∧ enqCode .ok = 0 ∧ enqCode .full = 1

/-- R236: a PULL while running returns one block of exactly BLOCK_SIZE samples, the next ones in order and then zeros,
reports an underrun exactly when it supplied one, removes a used-up head, and leaves the rest to deliver. The premise is the
sink's invariant (R247), which says where the read position can stand. -/
def Obligations.PullDeliversTheNextBlock : Prop :=
  ∀ s : State, s.sink.mode = .running → SinkInv s.cfg s.sink →
    ∃ (b : Block) (k : Sink), exec .pull s = .next { s with sink := k, out := .block b }
      ∧ b.samples = (pendingSamples s.sink).take s.cfg.blockSize
          ++ zeros (s.cfg.blockSize - (pendingSamples s.sink).length)
      ∧ b.samples.length = s.cfg.blockSize
      ∧ (b.underrun = true ↔ (pendingSamples s.sink).length < s.cfg.blockSize)
      ∧ pendingSamples k = (pendingSamples s.sink).drop s.cfg.blockSize
      ∧ k.q <:+ s.sink.q ∧ k.mode = .running ∧ SinkInv s.cfg k

/-- R237 (a), (b), (d) (an inference of the spec): an empty queue gives a block of zeros and changes nothing; a queue of
empty buffers gives the same block and is emptied; an exact fit reports no underrun and leaves the queue empty. -/
def Obligations.PullCornerCases : Prop :=
  ∀ s : State, s.sink.mode = .running → 0 < s.cfg.blockSize → s.sink.hpos = 0 →
    (s.sink.q = [] → exec .pull s = .next { s with out := .block ⟨zeros s.cfg.blockSize, true⟩ })
    ∧ ((∀ b ∈ s.sink.q, b.pcm = []) →
        exec .pull s = .next { s with sink := { s.sink with q := [] }, out := .block ⟨zeros s.cfg.blockSize, true⟩ })
    ∧ (∀ b, s.sink.q = [b] → b.pcm.length = s.cfg.blockSize →
        exec .pull s = .next { s with sink := { s.sink with q := [] }, out := .block ⟨b.pcm, false⟩ })

/-- R238 (a decision of the spec, D37): PULL is refused exactly when the sink is not running, and no other operation is ever
refused so. -/
def Obligations.PullIsRefusedUnlessRunning : Prop :=
  ∀ (i : Instr) (s : State), exec i s = .refused .pullNotRunning ↔ i = .pull ∧ s.sink.mode ≠ .running

/-- R240 (the no-op path and the answers are decisions of the spec, D39): START. -/
def Obligations.StartOpensOrDegrades : Prop :=
  ∀ (k : Bool) (s : State),
    (s.sink.mode ≠ .stopped → exec (.start k) s = .next { s with out := .start .ok })
    ∧ (s.sink.mode = .stopped → k = true →
        exec (.start k) s = .next { s with sink := { s.sink with mode := .running }, out := .start .ok })
    ∧ (s.sink.mode = .stopped → k = false →
        exec (.start k) s = .next { s with sink := ⟨[], 0, .noop⟩, out := .start .deviceUnavailable })

/-- R244: STOP under each policy and in each mode; the blocks of DRAIN are those of R245. -/
def Obligations.StopEmptiesTheQueue : Prop :=
  ∀ s : State,
    (s.sink.mode = .stopped → exec .stop s = .next { s with out := .blocks [] })
    ∧ (s.sink.mode = .noop → exec .stop s = .next { s with sink := ⟨[], 0, .stopped⟩, out := .blocks [] })
    ∧ (s.sink.mode = .running → s.cfg.stopPolicy = .discard →
        exec .stop s = .next { s with sink := ⟨[], 0, .stopped⟩, out := .blocks [] })
    ∧ (s.sink.mode = .running → s.cfg.stopPolicy = .drain →
        ∃ bs, exec .stop s = .next { s with sink := ⟨[], 0, .stopped⟩, out := .blocks bs }
          ∧ bs = drainBlocks s.cfg.blockSize s.sink)

/-- R245 (the reading of "drained" is a decision of the spec, D40): DRAIN collects exactly ceil(R / BLOCK_SIZE) blocks, which
play out the remaining samples in order; only the last one can be padded, and it is exactly when BLOCK_SIZE does not
divide R. -/
def Obligations.DrainPlaysOutTheQueue : Prop :=
  ∀ (cfg : Config) (k : Sink), 0 < cfg.blockSize → SinkInv cfg k →
    let bs := drainBlocks cfg.blockSize k
    let r := (pendingSamples k).length
    r + k.hpos = (k.q.map fun b => b.pcm.length).sum
    ∧ bs.length = (r + cfg.blockSize - 1) / cfg.blockSize
    ∧ (bs.flatMap fun b => b.samples) = pendingSamples k ++ zeros (bs.length * cfg.blockSize - r)
    ∧ (∀ b ∈ bs, b.samples.length = cfg.blockSize)
    ∧ (∀ i b, bs[i]? = some b → (b.underrun = true ↔ i + 1 = bs.length ∧ r % cfg.blockSize ≠ 0))

/-- R230: the operations of the sink and of the renderer read and write no chip state element: what they do to the sink and
what they return is the same whatever the chip holds. -/
def Obligations.SinkOperationsLeaveTheChip : Prop :=
  ∀ (i : Instr) (s t : State) (c : Chip),
    (i = .pull ∨ (∃ k, i = .start k) ∨ i = .stop ∨ (∃ b, i = .enq b) ∨ ∃ p, i = .render p) →
    exec i s = .next t →
    t.chip = s.chip ∧ exec i { s with chip := c } = .next { t with chip := c }

/-! ## Invariants and runs -/

/-- R34, R247 (inferences of the spec): every step keeps the invariants of the chip and of the sink. -/
def Obligations.StepKeepsInvariant : Prop := ∀ s t : State, Inv s → step s = .next t → Inv t

/-- R34, R247 (inferences of the spec): the invariants hold after power-on, whatever the configuration. -/
def Obligations.PowerOnHasInvariant : Prop := ∀ cfg : Config, Inv (State.powerOn cfg)

/-- R247 (e), R83 (a), (c) (inferences of the spec): over any run in which nothing is discarded, the samples delivered are, in
order, the samples that were queued at its start and those accepted since, each once; what is not yet delivered is what
the queue still holds. -/
def Obligations.QueueDeliversEverySampleOnceInOrder : Prop :=
  ∀ (is : List Instr) (s u : State) (delivered accepted : List Sample),
    SinkInv s.cfg s.sink → fifoRun is s = some (delivered, accepted, u) →
    delivered ++ pendingSamples u.sink = pendingSamples s.sink ++ accepted

/-- R82, R321: the chip does not depend on where the audio agent's PULLs fall: two runs of the same host operations from
states that agree on the configuration and the chip, however the PULLs are placed and whatever the sinks hold, agree on
the whole chip and on the log apart from its DROP events. -/
def Obligations.ChipIsTheSameInEveryInterleaving : Prop :=
  ∀ (is js : List Instr) (s s' t t' : State),
    hostOps is = hostOps js → s.cfg = s'.cfg → chipView s.chip = chipView s'.chip →
    runOps is s = .next t → runOps js s' = .next t' →
    chipView t.chip = chipView t'.chip
end

