-- ==== Sys2Proof/Laws/State.lean ====
section
/-! SUPPORT. One lemma per field per update of the state, each true by unfolding the update once. -/

namespace Sys2Proof.Machine

/-! ### storeDurPhon -/

@[simp] theorem storeDurPhon_dm (d : Byte) (c : Chip) : (storeDurPhon d c).dm = fieldDm d := rfl
@[simp] theorem storeDurPhon_ph (d : Byte) (c : Chip) : (storeDurPhon d c).ph = fieldPh d := rfl
@[simp] theorem storeDurPhon_inf (d : Byte) (c : Chip) : (storeDurPhon d c).inf = c.inf := rfl
@[simp] theorem storeDurPhon_rate (d : Byte) (c : Chip) : (storeDurPhon d c).rate = c.rate := rfl
@[simp] theorem storeDurPhon_ctl (d : Byte) (c : Chip) : (storeDurPhon d c).ctl = c.ctl := rfl
@[simp] theorem storeDurPhon_art (d : Byte) (c : Chip) : (storeDurPhon d c).art = c.art := rfl
@[simp] theorem storeDurPhon_amp (d : Byte) (c : Chip) : (storeDurPhon d c).amp = c.amp := rfl
@[simp] theorem storeDurPhon_ff (d : Byte) (c : Chip) : (storeDurPhon d c).ff = c.ff := rfl
@[simp] theorem storeDurPhon_spk (d : Byte) (c : Chip) : (storeDurPhon d c).spk = c.spk := rfl
@[simp] theorem storeDurPhon_pend (d : Byte) (c : Chip) : (storeDurPhon d c).pend = c.pend := rfl
@[simp] theorem storeDurPhon_cyc (d : Byte) (c : Chip) : (storeDurPhon d c).cyc = c.cyc := rfl
@[simp] theorem storeDurPhon_irq (d : Byte) (c : Chip) : (storeDurPhon d c).irq = c.irq := rfl
@[simp] theorem storeDurPhon_log (d : Byte) (c : Chip) : (storeDurPhon d c).log = c.log := rfl

/-! ### storeInfl -/

@[simp] theorem storeInfl_dm (d : Byte) (c : Chip) : (storeInfl d c).dm = c.dm := rfl
@[simp] theorem storeInfl_ph (d : Byte) (c : Chip) : (storeInfl d c).ph = c.ph := rfl
@[simp] theorem storeInfl_inf (d : Byte) (c : Chip) : (storeInfl d c).inf = insertInfMiddle c.inf d := rfl
@[simp] theorem storeInfl_rate (d : Byte) (c : Chip) : (storeInfl d c).rate = c.rate := rfl
@[simp] theorem storeInfl_ctl (d : Byte) (c : Chip) : (storeInfl d c).ctl = c.ctl := rfl
@[simp] theorem storeInfl_art (d : Byte) (c : Chip) : (storeInfl d c).art = c.art := rfl
@[simp] theorem storeInfl_amp (d : Byte) (c : Chip) : (storeInfl d c).amp = c.amp := rfl
@[simp] theorem storeInfl_ff (d : Byte) (c : Chip) : (storeInfl d c).ff = c.ff := rfl
@[simp] theorem storeInfl_spk (d : Byte) (c : Chip) : (storeInfl d c).spk = c.spk := rfl
@[simp] theorem storeInfl_pend (d : Byte) (c : Chip) : (storeInfl d c).pend = c.pend := rfl
@[simp] theorem storeInfl_cyc (d : Byte) (c : Chip) : (storeInfl d c).cyc = c.cyc := rfl
@[simp] theorem storeInfl_irq (d : Byte) (c : Chip) : (storeInfl d c).irq = c.irq := rfl
@[simp] theorem storeInfl_log (d : Byte) (c : Chip) : (storeInfl d c).log = c.log := rfl

/-! ### storeRateInf -/

@[simp] theorem storeRateInf_dm (d : Byte) (c : Chip) : (storeRateInf d c).dm = c.dm := rfl
@[simp] theorem storeRateInf_ph (d : Byte) (c : Chip) : (storeRateInf d c).ph = c.ph := rfl
@[simp] theorem storeRateInf_inf (d : Byte) (c : Chip) : (storeRateInf d c).inf = insertInfOuter c.inf d := rfl
@[simp] theorem storeRateInf_rate (d : Byte) (c : Chip) : (storeRateInf d c).rate = fieldRate d := rfl
@[simp] theorem storeRateInf_ctl (d : Byte) (c : Chip) : (storeRateInf d c).ctl = c.ctl := rfl
@[simp] theorem storeRateInf_art (d : Byte) (c : Chip) : (storeRateInf d c).art = c.art := rfl
@[simp] theorem storeRateInf_amp (d : Byte) (c : Chip) : (storeRateInf d c).amp = c.amp := rfl
@[simp] theorem storeRateInf_ff (d : Byte) (c : Chip) : (storeRateInf d c).ff = c.ff := rfl
@[simp] theorem storeRateInf_spk (d : Byte) (c : Chip) : (storeRateInf d c).spk = c.spk := rfl
@[simp] theorem storeRateInf_pend (d : Byte) (c : Chip) : (storeRateInf d c).pend = c.pend := rfl
@[simp] theorem storeRateInf_cyc (d : Byte) (c : Chip) : (storeRateInf d c).cyc = c.cyc := rfl
@[simp] theorem storeRateInf_irq (d : Byte) (c : Chip) : (storeRateInf d c).irq = c.irq := rfl
@[simp] theorem storeRateInf_log (d : Byte) (c : Chip) : (storeRateInf d c).log = c.log := rfl

/-! ### storeCtlArtAmp -/

@[simp] theorem storeCtlArtAmp_dm (d : Byte) (c : Chip) : (storeCtlArtAmp d c).dm = c.dm := rfl
@[simp] theorem storeCtlArtAmp_ph (d : Byte) (c : Chip) : (storeCtlArtAmp d c).ph = c.ph := rfl
@[simp] theorem storeCtlArtAmp_inf (d : Byte) (c : Chip) : (storeCtlArtAmp d c).inf = c.inf := rfl
@[simp] theorem storeCtlArtAmp_rate (d : Byte) (c : Chip) : (storeCtlArtAmp d c).rate = c.rate := rfl
@[simp] theorem storeCtlArtAmp_ctl (d : Byte) (c : Chip) : (storeCtlArtAmp d c).ctl = fieldCtl d := rfl
@[simp] theorem storeCtlArtAmp_art (d : Byte) (c : Chip) : (storeCtlArtAmp d c).art = fieldArt d := rfl
@[simp] theorem storeCtlArtAmp_amp (d : Byte) (c : Chip) : (storeCtlArtAmp d c).amp = fieldAmp d := rfl
@[simp] theorem storeCtlArtAmp_ff (d : Byte) (c : Chip) : (storeCtlArtAmp d c).ff = c.ff := rfl
@[simp] theorem storeCtlArtAmp_spk (d : Byte) (c : Chip) : (storeCtlArtAmp d c).spk = c.spk := rfl
@[simp] theorem storeCtlArtAmp_pend (d : Byte) (c : Chip) : (storeCtlArtAmp d c).pend = c.pend := rfl
@[simp] theorem storeCtlArtAmp_cyc (d : Byte) (c : Chip) : (storeCtlArtAmp d c).cyc = c.cyc := rfl
@[simp] theorem storeCtlArtAmp_irq (d : Byte) (c : Chip) : (storeCtlArtAmp d c).irq = c.irq := rfl
@[simp] theorem storeCtlArtAmp_log (d : Byte) (c : Chip) : (storeCtlArtAmp d c).log = c.log := rfl

/-! ### storeFilter -/

@[simp] theorem storeFilter_dm (d : Byte) (c : Chip) : (storeFilter d c).dm = c.dm := rfl
@[simp] theorem storeFilter_ph (d : Byte) (c : Chip) : (storeFilter d c).ph = c.ph := rfl
@[simp] theorem storeFilter_inf (d : Byte) (c : Chip) : (storeFilter d c).inf = c.inf := rfl
@[simp] theorem storeFilter_rate (d : Byte) (c : Chip) : (storeFilter d c).rate = c.rate := rfl
@[simp] theorem storeFilter_ctl (d : Byte) (c : Chip) : (storeFilter d c).ctl = c.ctl := rfl
@[simp] theorem storeFilter_art (d : Byte) (c : Chip) : (storeFilter d c).art = c.art := rfl
@[simp] theorem storeFilter_amp (d : Byte) (c : Chip) : (storeFilter d c).amp = c.amp := rfl
@[simp] theorem storeFilter_ff (d : Byte) (c : Chip) : (storeFilter d c).ff = d := rfl
@[simp] theorem storeFilter_spk (d : Byte) (c : Chip) : (storeFilter d c).spk = c.spk := rfl
@[simp] theorem storeFilter_pend (d : Byte) (c : Chip) : (storeFilter d c).pend = c.pend := rfl
@[simp] theorem storeFilter_cyc (d : Byte) (c : Chip) : (storeFilter d c).cyc = c.cyc := rfl
@[simp] theorem storeFilter_irq (d : Byte) (c : Chip) : (storeFilter d c).irq = c.irq := rfl
@[simp] theorem storeFilter_log (d : Byte) (c : Chip) : (storeFilter d c).log = c.log := rfl

/-! ### emit -/

@[simp] theorem emit_dm (e : Event) (c : Chip) : (emit e c).dm = c.dm := rfl
@[simp] theorem emit_ph (e : Event) (c : Chip) : (emit e c).ph = c.ph := rfl
@[simp] theorem emit_inf (e : Event) (c : Chip) : (emit e c).inf = c.inf := rfl
@[simp] theorem emit_rate (e : Event) (c : Chip) : (emit e c).rate = c.rate := rfl
@[simp] theorem emit_ctl (e : Event) (c : Chip) : (emit e c).ctl = c.ctl := rfl
@[simp] theorem emit_art (e : Event) (c : Chip) : (emit e c).art = c.art := rfl
@[simp] theorem emit_amp (e : Event) (c : Chip) : (emit e c).amp = c.amp := rfl
@[simp] theorem emit_ff (e : Event) (c : Chip) : (emit e c).ff = c.ff := rfl
@[simp] theorem emit_spk (e : Event) (c : Chip) : (emit e c).spk = c.spk := rfl
@[simp] theorem emit_pend (e : Event) (c : Chip) : (emit e c).pend = c.pend := rfl
@[simp] theorem emit_cyc (e : Event) (c : Chip) : (emit e c).cyc = c.cyc := rfl
@[simp] theorem emit_irq (e : Event) (c : Chip) : (emit e c).irq = c.irq := rfl
@[simp] theorem emit_log (e : Event) (c : Chip) : (emit e c).log = c.log ++ [e] := rfl

/-! ### fireIrq -/

@[simp] theorem fireIrq_dm (c : Chip) : (fireIrq c).dm = c.dm := rfl
@[simp] theorem fireIrq_ph (c : Chip) : (fireIrq c).ph = c.ph := rfl
@[simp] theorem fireIrq_inf (c : Chip) : (fireIrq c).inf = c.inf := rfl
@[simp] theorem fireIrq_rate (c : Chip) : (fireIrq c).rate = c.rate := rfl
@[simp] theorem fireIrq_ctl (c : Chip) : (fireIrq c).ctl = c.ctl := rfl
@[simp] theorem fireIrq_art (c : Chip) : (fireIrq c).art = c.art := rfl
@[simp] theorem fireIrq_amp (c : Chip) : (fireIrq c).amp = c.amp := rfl
@[simp] theorem fireIrq_ff (c : Chip) : (fireIrq c).ff = c.ff := rfl
@[simp] theorem fireIrq_spk (c : Chip) : (fireIrq c).spk = false := rfl
@[simp] theorem fireIrq_pend (c : Chip) : (fireIrq c).pend = none := rfl
@[simp] theorem fireIrq_cyc (c : Chip) : (fireIrq c).cyc = c.cyc := rfl
@[simp] theorem fireIrq_irq (c : Chip) : (fireIrq c).irq = true := rfl
@[simp] theorem fireIrq_log (c : Chip) : (fireIrq c).log = c.log ++ [.irqAssert] := rfl

/-! ### acknowledge -/

@[simp] theorem acknowledge_cfg (s : State) : (acknowledge s).cfg = s.cfg := rfl
@[simp] theorem acknowledge_sink (s : State) : (acknowledge s).sink = s.sink := rfl
@[simp] theorem acknowledge_cmds (s : State) : (acknowledge s).cmds = s.cmds := rfl
@[simp] theorem acknowledge_out (s : State) : (acknowledge s).out = s.out := rfl
@[simp] theorem acknowledge_faulted (s : State) : (acknowledge s).faulted = s.faulted := rfl
@[simp] theorem acknowledge_enqFull (s : State) : (acknowledge s).enqFull = s.enqFull := rfl
@[simp] theorem acknowledge_chip (s : State) : (acknowledge s).chip = deassertIrq s.chip := rfl

/-! ### withFetchWord -/

@[simp] theorem withFetchWord_cfg (s : State) (nbits w : Nat) : (s.withFetchWord nbits w).cfg = s.cfg := rfl
@[simp] theorem withFetchWord_chip (s : State) (nbits w : Nat) : (s.withFetchWord nbits w).chip = s.chip := rfl
@[simp] theorem withFetchWord_sink (s : State) (nbits w : Nat) : (s.withFetchWord nbits w).sink = s.sink := rfl
@[simp] theorem withFetchWord_out (s : State) (nbits w : Nat) : (s.withFetchWord nbits w).out = s.out := rfl
@[simp] theorem withFetchWord_faulted (s : State) (nbits w : Nat) : (s.withFetchWord nbits w).faulted = s.faulted := rfl
@[simp] theorem withFetchWord_enqFull (s : State) (nbits w : Nat) : (s.withFetchWord nbits w).enqFull = s.enqFull := rfl
@[simp] theorem withFetchWord_cmds (s : State) (nbits w : Nat) :
    (s.withFetchWord nbits w).cmds = commandOfTableWord nbits w :: s.cmds := rfl

/-! ### power-on -/

@[simp] theorem powerOn_cfg (cfg : Config) : (State.powerOn cfg).cfg = cfg := rfl
@[simp] theorem powerOn_chip (cfg : Config) : (State.powerOn cfg).chip = Chip.powerOn := rfl
@[simp] theorem powerOn_sink (cfg : Config) : (State.powerOn cfg).sink = Sink.powerOn := rfl
@[simp] theorem powerOn_cmds (cfg : Config) : (State.powerOn cfg).cmds = [] := rfl
@[simp] theorem powerOn_out (cfg : Config) : (State.powerOn cfg).out = .nothing := rfl
@[simp] theorem powerOn_faulted (cfg : Config) : (State.powerOn cfg).faulted = false := rfl
@[simp] theorem powerOn_enqFull (cfg : Config) : (State.powerOn cfg).enqFull = false := rfl

/-! ### enqueueIn -/

@[simp] theorem enqueueIn_result (b : Buffer) (s : State) : (enqueueIn b s).1 = (enqueue s.cfg b s.sink).1 := rfl
@[simp] theorem enqueueIn_cfg (b : Buffer) (s : State) : (enqueueIn b s).2.cfg = s.cfg := rfl
@[simp] theorem enqueueIn_chip (b : Buffer) (s : State) : (enqueueIn b s).2.chip = s.chip := rfl
@[simp] theorem enqueueIn_sink (b : Buffer) (s : State) :
    (enqueueIn b s).2.sink = (enqueue s.cfg b s.sink).2 := rfl
@[simp] theorem enqueueIn_cmds (b : Buffer) (s : State) : (enqueueIn b s).2.cmds = s.cmds := rfl
@[simp] theorem enqueueIn_out (b : Buffer) (s : State) : (enqueueIn b s).2.out = s.out := rfl
@[simp] theorem enqueueIn_faulted (b : Buffer) (s : State) : (enqueueIn b s).2.faulted = s.faulted := rfl
@[simp] theorem enqueueIn_enqFull (b : Buffer) (s : State) :
    (enqueueIn b s).2.enqFull = decide ((enqueue s.cfg b s.sink).1 = .full) := rfl

/-! ### how an operation ends -/

@[simp] theorem finish_eq (r : Result) (s : State) : finish r s = .next { s with out := r } := rfl

@[simp] theorem raise_eq (f : Fault) (s : State) : raise f s = .next { s with out := .fault f, faulted := true } := rfl

end Sys2Proof.Machine
end

