-- ==== Sys2Proof/Laws/Chip.lean ====
section
/-! SUPPORT. What the shared operations over the chip can do: deasserting the line, firing, RESET, and the chip's part of a
play event. -/

namespace Sys2Proof.Machine

/-- Deasserting writes the line and, if it was asserted, one event. -/
theorem deassertIrq_eq (c : Chip) :
    deassertIrq c = { c with irq := false, log := c.log ++ (if c.irq then [.irqDeassert] else []) } := by
  obtain ⟨dm, ph, inf, rate, ctl, art, amp, ff, spk, pend, cyc, irq, log⟩ := c
  cases irq <;> simp [deassertIrq, emit]

/-- Firing is conditional on a pending target that the counter has reached. -/
theorem fireIfDue_of_due {c : Chip} {target : Nat} (hp : c.pend = some target) (hd : target ≤ c.cyc) :
    fireIfDue c = fireIrq c := by simp [fireIfDue, hp, hd]

theorem fireIfDue_of_not_due {c : Chip} (h : ∀ target, c.pend = some target → c.cyc < target) : fireIfDue c = c := by
  unfold fireIfDue
  split
  · next target hp => simp [Nat.not_le.mpr (h target hp)]
  · rfl

/-- Either the target is reached and the interrupt fires, or nothing happens. -/
theorem fireIfDue_cases (c : Chip) :
    (∃ target, c.pend = some target ∧ target ≤ c.cyc ∧ fireIfDue c = fireIrq c)
    ∨ ((∀ target, c.pend = some target → c.cyc < target) ∧ fireIfDue c = c) := by
  by_cases h : ∃ target, c.pend = some target ∧ target ≤ c.cyc
  · obtain ⟨target, hp, hd⟩ := h
    exact .inl ⟨target, hp, hd, fireIfDue_of_due hp hd⟩
  · have hn : ∀ target, c.pend = some target → c.cyc < target := fun target hp =>
      Nat.lt_of_not_le fun hd => h ⟨target, hp, hd⟩
    exact .inr ⟨hn, fireIfDue_of_not_due hn⟩

/-- RESET of the chip, every element written out. -/
theorem resetChip_eq (c : Chip) :
    resetChip c =
      { dm := 0, ph := 0, inf := 0, rate := 0, ctl := true, art := 0, amp := 0, ff := 0, spk := false, pend := none
        cyc := c.cyc, irq := false, log := c.log ++ (if c.irq then [.irqDeassert] else []) } := by
  simp [resetChip, deassertIrq_eq]

/-- The chip's part of a play event, every element written out. -/
theorem scheduleChip_eq (dms dcy : Nat) (r : EnqResult) (c : Chip) :
    scheduleChip dms dcy r c =
      { c with
        spk := true
        irq := false
        pend := some (c.cyc + dcy)
        log := c.log ++ (if c.irq then [.irqDeassert] else []) ++ [.play c.ph c.dm dms]
          ++ (if r = .full then [.drop] else []) } := by
  cases r <;> simp [scheduleChip, deassertIrq_eq, emit]

end Sys2Proof.Machine
end

