-- ==== Sys2Proof/Laws/Decode.lean ====
section
/-! SUPPORT. The fields of a command word and of a render parameter word as numbers, and the fields of an encoded word. -/

namespace Sys2Proof

/-- Appending bit vectors, as numbers. -/
theorem toNat_append_add {m n : Nat} (x : BitVec m) (y : BitVec n) : (x ++ y).toNat = x.toNat * 2 ^ n + y.toNat := by
  rw [BitVec.toNat_append, ← Nat.shiftLeft_add_eq_or_of_lt y.isLt, Nat.shiftLeft_eq]

theorem op_toNat (c : Command) : c.op.toNat = c.cmd.toNat / 2 ^ 12 := by
  have := c.cmd.isLt
  simp only [Command.op, BitVec.extractLsb'_toNat, Nat.shiftRight_eq_div_pow]; omega

theorem z_toNat (c : Command) : c.z.toNat = c.cmd.toNat / 2 ^ 11 % 2 := by
  simp only [Command.z, BitVec.extractLsb'_toNat, Nat.shiftRight_eq_div_pow, Nat.pow_one]

theorem addr_toNat (c : Command) : c.addr.toNat = c.cmd.toNat / 2 ^ 8 % 2 ^ 3 := by
  simp only [Command.addr, BitVec.extractLsb'_toNat, Nat.shiftRight_eq_div_pow]

theorem data_toNat (c : Command) : c.data.toNat = c.cmd.toNat % 2 ^ 8 := by
  simp [Command.data, BitVec.extractLsb'_toNat]

theorem low12_toNat (w : CmdWord) : (w.extractLsb' 0 12).toNat = w.toNat % 2 ^ 12 := by
  simp [BitVec.extractLsb'_toNat]

theorem startField_toNat (w : CmdWord) : (w.extractLsb' 1 11).toNat = w.toNat / 2 % 2 ^ 11 := by
  simp [BitVec.extractLsb'_toNat, Nat.shiftRight_eq_div_pow]

theorem cmdWord_toNat (op : BitVec 4) (a : BitVec 3) (d : Byte) :
    (cmdWord op a d).toNat = op.toNat * 2 ^ 12 + a.toNat * 2 ^ 8 + d.toNat := by
  show (op ++ 0#1 ++ a ++ d : BitVec (4 + 1 + 3 + 8)).toNat = _
  simp only [toNat_append_add, BitVec.toNat_ofNat]; omega

@[simp] theorem op_cmdWord (op : BitVec 4) (a : BitVec 3) (d : Byte) (e : Ext) : Command.op ⟨cmdWord op a d, e⟩ = op := by
  have := a.isLt
  have := d.isLt
  apply BitVec.eq_of_toNat_eq
  rw [op_toNat, cmdWord_toNat]; omega

@[simp] theorem z_cmdWord (op : BitVec 4) (a : BitVec 3) (d : Byte) (e : Ext) : Command.z ⟨cmdWord op a d, e⟩ = 0 := by
  have := a.isLt
  have := d.isLt
  apply BitVec.eq_of_toNat_eq
  rw [z_toNat, cmdWord_toNat]; simp; omega

@[simp] theorem addr_cmdWord (op : BitVec 4) (a : BitVec 3) (d : Byte) (e : Ext) :
    Command.addr ⟨cmdWord op a d, e⟩ = a := by
  have := a.isLt
  have := d.isLt
  apply BitVec.eq_of_toNat_eq
  rw [addr_toNat, cmdWord_toNat]; omega

@[simp] theorem data_cmdWord (op : BitVec 4) (a : BitVec 3) (d : Byte) (e : Ext) :
    Command.data ⟨cmdWord op a d, e⟩ = d := by
  have := d.isLt
  apply BitVec.eq_of_toNat_eq
  rw [data_toNat, cmdWord_toNat]; omega

@[simp] theorem low12_cmdWord (op : BitVec 4) : (cmdWord op 0#3 0#8).extractLsb' 0 12 = 0#12 := by
  apply BitVec.eq_of_toNat_eq
  rw [low12_toNat, cmdWord_toNat]; simp

/-- A command word is its four fields. -/
theorem cmdWord_of_fields (c : Command) (hz : c.z = 0) : cmdWord c.op c.addr c.data = c.cmd := by
  have hw := c.cmd.isLt
  have hz' : c.cmd.toNat / 2 ^ 11 % 2 = 0 := by rw [← z_toNat, hz]; rfl
  apply BitVec.eq_of_toNat_eq
  rw [cmdWord_toNat, op_toNat, addr_toNat, data_toNat]; omega

theorem encodeRpw_toNat (p : RenderParams) :
    (encodeRpw p).toNat =
      p.p8.toNat * 2 ^ 30 + p.dm.toNat * 2 ^ 28 + p.rate.toNat * 2 ^ 24 + p.inf.toNat * 2 ^ 12 + p.amp.toNat * 2 ^ 8
        + p.ff.toNat := by
  show (p.p8 ++ p.dm ++ p.rate ++ p.inf ++ p.amp ++ p.ff : BitVec (8 + 2 + 4 + 12 + 4 + 8)).toNat = _
  simp only [toNat_append_add]; omega

theorem decodeRpw_p8 (w : RpwWord) : (decodeRpw w).p8.toNat = w.toNat / 2 ^ 30 := by
  have := w.isLt
  simp only [decodeRpw, BitVec.extractLsb'_toNat, Nat.shiftRight_eq_div_pow]; omega

theorem decodeRpw_dm (w : RpwWord) : (decodeRpw w).dm.toNat = w.toNat / 2 ^ 28 % 4 := by
  simp only [decodeRpw, BitVec.extractLsb'_toNat, Nat.shiftRight_eq_div_pow]

theorem decodeRpw_rate (w : RpwWord) : (decodeRpw w).rate.toNat = w.toNat / 2 ^ 24 % 16 := by
  simp only [decodeRpw, BitVec.extractLsb'_toNat, Nat.shiftRight_eq_div_pow]

theorem decodeRpw_inf (w : RpwWord) : (decodeRpw w).inf.toNat = w.toNat / 2 ^ 12 % 4096 := by
  simp only [decodeRpw, BitVec.extractLsb'_toNat, Nat.shiftRight_eq_div_pow]

theorem decodeRpw_amp (w : RpwWord) : (decodeRpw w).amp.toNat = w.toNat / 2 ^ 8 % 16 := by
  simp only [decodeRpw, BitVec.extractLsb'_toNat, Nat.shiftRight_eq_div_pow]

theorem decodeRpw_ff (w : RpwWord) : (decodeRpw w).ff.toNat = w.toNat % 256 := by
  simp [decodeRpw, BitVec.extractLsb'_toNat]

/-- A parameter word is its six fields. -/
@[simp] theorem decodeRpw_encodeRpw (p : RenderParams) : decodeRpw (encodeRpw p) = p := by
  obtain ⟨p8, dm, rate, inf, amp, ff⟩ := p
  have := dm.isLt
  have := rate.isLt
  have := inf.isLt
  have := amp.isLt
  have := ff.isLt
  have h := encodeRpw_toNat ⟨p8, dm, rate, inf, amp, ff⟩
  dsimp only at h
  have h1 := decodeRpw_p8 (encodeRpw ⟨p8, dm, rate, inf, amp, ff⟩)
  have h2 := decodeRpw_dm (encodeRpw ⟨p8, dm, rate, inf, amp, ff⟩)
  have h3 := decodeRpw_rate (encodeRpw ⟨p8, dm, rate, inf, amp, ff⟩)
  have h4 := decodeRpw_inf (encodeRpw ⟨p8, dm, rate, inf, amp, ff⟩)
  have h5 := decodeRpw_amp (encodeRpw ⟨p8, dm, rate, inf, amp, ff⟩)
  have h6 := decodeRpw_ff (encodeRpw ⟨p8, dm, rate, inf, amp, ff⟩)
  rw [h] at h1 h2 h3 h4 h5 h6
  rw [RenderParams.mk.injEq]
  refine ⟨?_, ?_, ?_, ?_, ?_, ?_⟩ <;> apply BitVec.eq_of_toNat_eq
  · exact h1.trans (by omega)
  · exact h2.trans (by omega)
  · exact h3.trans (by omega)
  · exact h4.trans (by omega)
  · exact h5.trans (by omega)
  · exact h6.trans (by omega)

/-- The fields of any parameter word give the word back. -/
@[simp] theorem encodeRpw_decodeRpw (w : RpwWord) : encodeRpw (decodeRpw w) = w := by
  have := w.isLt
  apply BitVec.eq_of_toNat_eq
  rw [encodeRpw_toNat, decodeRpw_p8, decodeRpw_dm, decodeRpw_rate, decodeRpw_inf, decodeRpw_amp, decodeRpw_ff]; omega

end Sys2Proof
end

