-- ==== Sys2Proof/Laws/Queue.lean ====
section
/-! SUPPORT. What the shared operations over the sink can do: ENQ, the loop of PULL, DRAIN. -/

namespace Sys2Proof.Machine

/-- ENQ answers FULL exactly when the queue is full, and takes the buffer exactly when it has room. -/
theorem enqueue_eq (cfg : Config) (b : Buffer) (k : Sink) :
    enqueue cfg b k =
      (if queueFull cfg k then .full else .ok,
        { k with q := k.q ++ (if queueTakes cfg k then [b] else []) }) := by
  obtain ⟨q, hpos, mode⟩ := k
  by_cases hm : mode = .noop <;> by_cases hl : q.length = cfg.queueDepth <;>
    simp [enqueue, queueFull, queueTakes, hm, hl]

/-- ENQ of either caller: the result, the sink and the port `FULL`, every other field as it was. -/
theorem enqueueIn_eq (b : Buffer) (s : State) :
    enqueueIn b s =
      (if queueFull s.cfg s.sink then .full else .ok,
        { s with
          sink := { s.sink with q := s.sink.q ++ (if queueTakes s.cfg s.sink then [b] else []) }
          enqFull := queueFull s.cfg s.sink }) := by
  simp only [enqueueIn, enqueue_eq]
  cases queueFull s.cfg s.sink <;> rfl

/-- ENQ keeps the read position and the mode. -/
@[simp] theorem enqueue_hpos (cfg : Config) (b : Buffer) (k : Sink) : (enqueue cfg b k).2.hpos = k.hpos := by
  simp [enqueue_eq]

@[simp] theorem enqueue_mode (cfg : Config) (b : Buffer) (k : Sink) : (enqueue cfg b k).2.mode = k.mode := by
  simp [enqueue_eq]

@[simp] theorem length_zeros (n : Nat) : (zeros n).length = n := by simp [zeros]

@[simp] theorem zeros_zero : zeros 0 = [] := rfl

/-- The read position stands inside the head buffer. -/
def HeadOk (q : List Buffer) (hpos : Nat) : Prop :=
  match q with
  | [] => hpos = 0
  | b :: _ => hpos ≤ b.pcm.length

theorem SinkInv.headOk {cfg : Config} {k : Sink} (h : SinkInv cfg k) : HeadOk k.q k.hpos := by
  cases hq : k.q with
  | nil => exact h.hpos_empty hq
  | cons b rest => exact (h.hpos_head b rest hq).1

theorem HeadOk.zero (q : List Buffer) : HeadOk q 0 := by cases q <;> simp [HeadOk]

/-- The samples that a queue and a read position still hold. -/
def samplesFrom (q : List Buffer) (hpos : Nat) : List Sample := (q.flatMap fun b => b.pcm).drop hpos

theorem pendingSamples_eq (k : Sink) : pendingSamples k = samplesFrom k.q k.hpos := rfl

theorem samplesFrom_cons {b : Buffer} {rest : List Buffer} {hpos : Nat} (h : hpos ≤ b.pcm.length) :
    samplesFrom (b :: rest) hpos = b.pcm.drop hpos ++ samplesFrom rest 0 := by
  simp [samplesFrom, List.drop_append_of_le_length h]

/-- The head is used up: it is removed and the loop goes on with the next buffer. -/
theorem pullLoop_used {b : Buffer} {rest : List Buffer} {hpos need : Nat} (hn : need ≠ 0)
    (h : b.pcm.length - hpos ≤ need) :
    pullLoop (b :: rest) hpos need =
      (b.pcm.drop hpos ++ (pullLoop rest 0 (need - (b.pcm.length - hpos))).1,
        (pullLoop rest 0 (need - (b.pcm.length - hpos))).2.1,
        (pullLoop rest 0 (need - (b.pcm.length - hpos))).2.2.1,
        (pullLoop rest 0 (need - (b.pcm.length - hpos))).2.2.2) := by
  have hk : b.pcm.length ≤ hpos + (b.pcm.length - hpos) := by omega
  rw [pullLoop, if_neg hn]
  simp only [Nat.min_eq_right h, if_pos hk]
  rw [List.take_of_length_le (by simp)]

/-- The block is complete inside the head. -/
theorem pullLoop_inside {b : Buffer} {rest : List Buffer} {hpos need : Nat} (hn : need ≠ 0)
    (h : need < b.pcm.length - hpos) :
    pullLoop (b :: rest) hpos need = ((b.pcm.drop hpos).take need, false, b :: rest, hpos + need) := by
  have hk : ¬ b.pcm.length ≤ hpos + need := by omega
  rw [pullLoop, if_neg hn]
  simp only [Nat.min_eq_left (Nat.le_of_lt h), if_neg hk]

/-- What the loop of PULL delivers and leaves: the next samples in order, then zeros; the underrun bit; the samples left;
and a read position that stands inside the head again. -/
theorem pullLoop_spec (q : List Buffer) (hpos need : Nat) (h : HeadOk q hpos) :
    (pullLoop q hpos need).1 = (samplesFrom q hpos).take need ++ zeros (need - (samplesFrom q hpos).length)
    ∧ ((pullLoop q hpos need).2.1 = true ↔ (samplesFrom q hpos).length < need)
    ∧ samplesFrom (pullLoop q hpos need).2.2.1 (pullLoop q hpos need).2.2.2 = (samplesFrom q hpos).drop need
    ∧ HeadOk (pullLoop q hpos need).2.2.1 (pullLoop q hpos need).2.2.2
    ∧ (pullLoop q hpos need).2.2.1 <:+ q := by
  induction q generalizing hpos need with
  | nil =>
    simp only [HeadOk] at h
    subst h
    by_cases hn : need = 0 <;> simp [pullLoop, hn, samplesFrom, HeadOk, Nat.pos_of_ne_zero]
  | cons b rest ih =>
    simp only [HeadOk] at h
    by_cases hn : need = 0
    · subst hn
      simp [pullLoop, HeadOk, h]
    · rw [samplesFrom_cons h]
      by_cases hk : b.pcm.length - hpos ≤ need
      · obtain ⟨h1, h2, h3, h4, h5⟩ := ih 0 (need - (b.pcm.length - hpos)) (HeadOk.zero rest)
        have hlen : (b.pcm.drop hpos).length ≤ need := by simpa using hk
        rw [pullLoop_used hn hk]
        refine ⟨?_, ?_, ?_, h4, h5.trans (List.suffix_cons b rest)⟩
        · simp only [h1, List.take_append, List.take_of_length_le hlen, List.append_assoc]
          congr 3
          · simp
          · simp; omega
        · rw [h2]; simp; omega
        · simp only [h3, List.drop_append, List.drop_eq_nil_of_le hlen, List.nil_append, List.length_drop]
      · have hlt : need ≤ (b.pcm.drop hpos).length := by simp; omega
        rw [pullLoop_inside hn (by omega)]
        refine ⟨?_, ?_, ?_, ?_, List.suffix_refl _⟩
        · have hz : need - (b.pcm.drop hpos ++ samplesFrom rest 0).length = 0 := by simp; omega
          rw [hz, List.take_append_of_le_length hlt, zeros_zero, List.append_nil]
        · simp; omega
        · show samplesFrom (b :: rest) (hpos + need) = _
          rw [samplesFrom_cons (by omega), List.drop_append_of_le_length hlt, List.drop_drop]
        · show hpos + need ≤ b.pcm.length
          omega

/-- A queue that the loop empties leaves the read position at 0. -/
theorem pullLoop_nil {q : List Buffer} {hpos need : Nat} (h0 : q = [] → hpos = 0)
    (hq : (pullLoop q hpos need).2.2.1 = []) : (pullLoop q hpos need).2.2.2 = 0 := by
  induction q generalizing hpos need with
  | nil =>
    unfold pullLoop
    split <;> simp [h0]
  | cons a q ih =>
    by_cases hn : need = 0
    · simp [pullLoop, hn] at hq
    · by_cases hk : a.pcm.length - hpos ≤ need
      · rw [pullLoop_used hn hk] at hq ⊢
        exact ih (fun _ => rfl) hq
      · rw [pullLoop_inside hn (by omega)] at hq
        cases hq

/-- The head that the loop leaves is not used up, unless it is an empty buffer not yet reached (R247 (b)). -/
theorem pullLoop_head {q : List Buffer} {hpos need : Nat} {b : Buffer} {rest : List Buffer}
    (h : ∀ b rest, q = b :: rest → hpos ≤ b.pcm.length ∧ (hpos = b.pcm.length → b.pcm = []))
    (hq : (pullLoop q hpos need).2.2.1 = b :: rest) :
    (pullLoop q hpos need).2.2.2 ≤ b.pcm.length ∧ ((pullLoop q hpos need).2.2.2 = b.pcm.length → b.pcm = []) := by
  induction q generalizing hpos need with
  | nil =>
    unfold pullLoop at hq
    split at hq <;> cases hq
  | cons a q ih =>
    by_cases hn : need = 0
    · subst hn
      simp only [pullLoop, if_true] at hq ⊢
      exact h b rest hq
    · by_cases hk : a.pcm.length - hpos ≤ need
      · rw [pullLoop_used hn hk] at hq ⊢
        refine ih (fun c tail _ => ⟨Nat.zero_le _, fun he => ?_⟩) hq
        exact List.eq_nil_of_length_eq_zero he.symm
      · rw [pullLoop_inside hn (by omega)] at hq ⊢
        cases hq
        exact ⟨by simp only; omega, fun he => by simp only at he; omega⟩

end Sys2Proof.Machine
end

