-- ==== Sys2Proof/Laws/Drain.lean ====
section
/-! SUPPORT. What DRAIN can do: it collects the blocks of the remaining samples in order. -/

namespace Sys2Proof.Machine

theorem length_samplesFrom (q : List Buffer) (hpos : Nat) :
    (samplesFrom q hpos).length = (q.map fun b => b.pcm.length).sum - hpos := by
  simp [samplesFrom, List.length_flatMap]

/-- The number of samples still to deliver is the length of what is still to deliver. -/
theorem remaining_eq (k : Sink) : remaining k = (pendingSamples k).length := by
  rw [pendingSamples_eq, length_samplesFrom]; rfl

/-- One body of PULL: the block, and what it leaves to deliver. -/
theorem pullBody_spec (blockSize : Nat) (k : Sink) (h : HeadOk k.q k.hpos) :
    (pullBody blockSize k).1.samples =
        (pendingSamples k).take blockSize ++ zeros (blockSize - (pendingSamples k).length)
    ∧ ((pullBody blockSize k).1.underrun = true ↔ (pendingSamples k).length < blockSize)
    ∧ pendingSamples (pullBody blockSize k).2 = (pendingSamples k).drop blockSize
    ∧ HeadOk (pullBody blockSize k).2.q (pullBody blockSize k).2.hpos
    ∧ (pullBody blockSize k).2.q <:+ k.q
    ∧ (pullBody blockSize k).2.mode = k.mode := by
  obtain ⟨h1, h2, h3, h4, h5⟩ := pullLoop_spec k.q k.hpos blockSize h
  exact ⟨h1, h2, h3, h4, h5, rfl⟩

/-- A block has exactly the block size. -/
theorem pullBody_length (blockSize : Nat) (k : Sink) (h : HeadOk k.q k.hpos) :
    (pullBody blockSize k).1.samples.length = blockSize := by
  rw [(pullBody_spec blockSize k h).1]
  simp; omega

/-- With enough fuel, DRAIN is the block of one PULL and DRAIN of what it leaves. -/
theorem drainLoop_spec {blockSize : Nat} (hb : 0 < blockSize) (fuel : Nat) (k : Sink) (h : HeadOk k.q k.hpos)
    (hf : (pendingSamples k).length ≤ fuel) :
    (drainLoop blockSize fuel k).length = ((pendingSamples k).length + blockSize - 1) / blockSize
    ∧ ((drainLoop blockSize fuel k).flatMap fun b => b.samples) =
        pendingSamples k
          ++ zeros ((drainLoop blockSize fuel k).length * blockSize - (pendingSamples k).length)
    ∧ (∀ b ∈ drainLoop blockSize fuel k, b.samples.length = blockSize)
    ∧ ∀ i b, (drainLoop blockSize fuel k)[i]? = some b →
        (b.underrun = true ↔
          i + 1 = (drainLoop blockSize fuel k).length ∧ (pendingSamples k).length % blockSize ≠ 0) := by
  induction fuel generalizing k with
  | zero =>
    have h0 : pendingSamples k = [] := List.eq_nil_of_length_eq_zero (by omega)
    have hdiv : (blockSize - 1) / blockSize = 0 := Nat.div_eq_of_lt (by omega)
    simp [drainLoop, h0, hdiv]
  | succ fuel ih =>
    by_cases hr : (pendingSamples k).length = 0
    · have h0 : pendingSamples k = [] := List.eq_nil_of_length_eq_zero hr
      have hdiv : (blockSize - 1) / blockSize = 0 := Nat.div_eq_of_lt (by omega)
      simp [drainLoop, remaining_eq, h0, hdiv]
    · obtain ⟨h1, h2, h3, h4, -, -⟩ := pullBody_spec blockSize k h
      have hlen := pullBody_length blockSize k h
      have hl : (pendingSamples (pullBody blockSize k).2).length = (pendingSamples k).length - blockSize := by
        rw [h3, List.length_drop]
      obtain ⟨i1, i2, i3, i4⟩ := ih (pullBody blockSize k).2 h4 (by omega)
      have hu : drainLoop blockSize (fuel + 1) k =
          (pullBody blockSize k).1 :: drainLoop blockSize fuel (pullBody blockSize k).2 := by
        rw [drainLoop, remaining_eq, if_neg hr]
      have hcount : (drainLoop blockSize fuel (pullBody blockSize k).2).length + 1 =
          ((pendingSamples k).length + blockSize - 1) / blockSize := by
        rw [i1, hl]
        by_cases hle : blockSize ≤ (pendingSamples k).length
        · rw [← Nat.add_div_right _ hb]
          congr 1
          omega
        · have e1 : (pendingSamples k).length - blockSize + blockSize - 1 < blockSize := by omega
          have e2 : (pendingSamples k).length + blockSize - 1 = ((pendingSamples k).length - 1) + blockSize := by omega
          rw [Nat.div_eq_of_lt e1, e2, Nat.add_div_right _ hb, Nat.div_eq_of_lt (by omega)]
      rw [hu]
      refine ⟨by rw [List.length_cons, hcount], ?_, ?_, ?_⟩
      · rw [List.flatMap_cons, i2, h3, h1, List.length_cons]
        by_cases hle : blockSize ≤ (pendingSamples k).length
        · have hz : blockSize - (pendingSamples k).length = 0 := by omega
          rw [hz, zeros_zero, List.append_nil, ← List.append_assoc, List.take_append_drop, List.length_drop]
          congr 2
          rw [Nat.add_mul, Nat.one_mul]
          omega
        · have hd : (pendingSamples k).drop blockSize = [] := List.drop_eq_nil_of_le (by omega)
          have h0 : (drainLoop blockSize fuel (pullBody blockSize k).2).length = 0 := by
            rw [i1, hl]
            exact Nat.div_eq_of_lt (by omega)
          rw [hd, h0, List.take_of_length_le (by omega)]
          simp
      · intro b hb'
        rcases List.mem_cons.mp hb' with rfl | hb'
        · exact hlen
        · exact i3 b hb'
      · intro i b hi
        cases i with
        | zero =>
          simp only [List.getElem?_cons_zero, Option.some.injEq] at hi
          subst hi
          rw [h2, List.length_cons, i1, hl]
          by_cases hle : blockSize ≤ (pendingSamples k).length
          · have e : 0 + 1 = ((pendingSamples k).length - blockSize + blockSize - 1) / blockSize + 1
                ↔ (pendingSamples k).length = blockSize := by
              rw [Nat.sub_add_cancel hle]
              constructor
              · intro h
                have : ((pendingSamples k).length - 1) / blockSize = 0 := by omega
                have := (Nat.div_eq_zero_iff.mp this).resolve_left (by omega)
                omega
              · intro h
                rw [h, Nat.div_eq_of_lt (by omega)]
            rw [e]
            constructor
            · omega
            · rintro ⟨h, h'⟩
              rw [h, Nat.mod_self] at h'
              exact absurd rfl h'
          · have e1 : ((pendingSamples k).length - blockSize + blockSize - 1) / blockSize = 0 := Nat.div_eq_of_lt (by omega)
            rw [e1, Nat.mod_eq_of_lt (by omega)]
            omega
        | succ i =>
          rw [List.getElem?_cons_succ] at hi
          rw [i4 i b hi, List.length_cons, hl]
          have hpos : 0 < (drainLoop blockSize fuel (pullBody blockSize k).2).length :=
            List.length_pos_of_mem (List.mem_of_getElem? hi)
          have hle : blockSize ≤ (pendingSamples k).length := by
            by_contra hlt
            rw [i1, hl, Nat.div_eq_of_lt (by omega)] at hpos
            exact absurd hpos (by omega)
          have hm : ((pendingSamples k).length - blockSize) % blockSize = (pendingSamples k).length % blockSize := by
            conv_rhs => rw [← Nat.sub_add_cancel hle, Nat.add_mod_right]
          rw [hm]
          omega

end Sys2Proof.Machine
end

