-- ==== Sys2Proof/Laws/Exec.lean ====
section
/-! SUPPORT. Every operation as one equation over the state, with the shared operations already unfolded: what `exec` can
do, said once for each instruction. -/

namespace Sys2Proof.Machine

/-- The state after a play event started in `s`. -/
def playedState (s : State) : State :=
  { s with
    chip :=
      { s.chip with
        spk := true
        irq := false
        pend := some (playTarget s.cfg s.chip)
        log := s.chip.log ++ (if s.chip.irq then [.irqDeassert] else [])
          ++ [.play s.chip.ph s.chip.dm (durationMs s.chip.rate s.chip.dm)]
          ++ (if queueFull s.cfg s.sink then [.drop] else []) }
    sink :=
      { s.sink with
        q := s.sink.q ++
          (if queueTakes s.cfg s.sink then [renderBuffer s.cfg (playParams s.chip)] else []) }
    out := .nothing
    enqFull := queueFull s.cfg s.sink }

theorem playedFrom_playedState (s : State) : PlayedFrom s (playedState s) := ⟨rfl, rfl, rfl, rfl, rfl, rfl, rfl⟩

/-- A play event is refused at overflow and otherwise leaves `playedState`. -/
theorem play_eq (s : State) :
    play s = if 2 ^ s.cfg.cycleW ≤ playTarget s.cfg s.chip then .refused .cycleOverflow else .next (playedState s) := by
  have ht : s.chip.cyc + durationCycles s.cfg (durationMs s.chip.rate s.chip.dm) = playTarget s.cfg s.chip := rfl
  simp only [play, finish_eq, ht, enqueueIn_eq, scheduleChip_eq, playedState]
  cases hf : queueFull s.cfg s.sink <;> simp

theorem exec_wrDurphon (d : Byte) (s : State) :
    exec (.wrDurphon d) s =
      if s.chip.ctl then .next { s with chip := storeDurPhon d s.chip, out := .nothing }
      else if 2 ^ s.cfg.cycleW ≤ playTarget s.cfg (storeDurPhon d s.chip) then .refused .cycleOverflow
      else .next (playedState { s with chip := storeDurPhon d s.chip }) := by
  simp only [exec, execWrDurphon, finish_eq, play_eq]

theorem exec_wrInfl (d : Byte) (s : State) :
    exec (.wrInfl d) s = .next { s with chip := storeInfl d s.chip, out := .nothing } := rfl

theorem exec_wrRateinf (d : Byte) (s : State) :
    exec (.wrRateinf d) s = .next { s with chip := storeRateInf d s.chip, out := .nothing } := rfl

theorem exec_wrCtlartamp (d : Byte) (s : State) :
    exec (.wrCtlartamp d) s =
      if s.chip.ctl && !d.getLsbD 7 then
        if 2 ^ s.cfg.cycleW ≤ playTarget s.cfg (storeCtlArtAmp d s.chip) then .refused .cycleOverflow
        else .next (playedState { s with chip := storeCtlArtAmp d s.chip })
      else .next { s with chip := storeCtlArtAmp d s.chip, out := .nothing } := by
  simp only [exec, execWrCtlartamp, finish_eq, play_eq, fieldCtl]

theorem exec_wrFilter (d : Byte) (s : State) :
    exec (.wrFilter d) s = .next { s with chip := storeFilter d s.chip, out := .nothing } := rfl

theorem exec_wrInvalid (a : BitVec 3) (d : Byte) (s : State) :
    exec (.wrInvalid a d) s = .next { s with out := .fault (.invalidRegisterAddress a .write), faulted := true } := rfl

theorem exec_rdStatus (s : State) :
    exec .rdStatus s = .next { s with out := .status (statusByte s.cfg s.chip.spk) } := rfl

theorem exec_rdInvalid (a : BitVec 3) (s : State) :
    exec (.rdInvalid a) s = .next { s with out := .fault (.invalidRegisterAddress a .read), faulted := true } := rfl

theorem exec_reset (s : State) : exec .reset s = .next { s with chip := resetChip s.chip, out := .nothing } := rfl

theorem exec_iack (s : State) : exec .iack s = .next { s with chip := deassertIrq s.chip, out := .nothing } := rfl

theorem exec_advance (n : Nat) (s : State) :
    exec (.advance n) s =
      if 2 ^ s.cfg.cycleW ≤ s.chip.cyc + n then .refused .cycleOverflow
      else .next { s with chip := fireIfDue { s.chip with cyc := s.chip.cyc + n }, out := .nothing } := rfl

theorem exec_pull (s : State) :
    exec .pull s =
      if s.sink.mode = .running then
        .next { s with sink := (pullBody s.cfg.blockSize s.sink).2, out := .block (pullBody s.cfg.blockSize s.sink).1 }
      else .refused .pullNotRunning := rfl

theorem exec_start (k : Bool) (s : State) :
    exec (.start k) s =
      if s.sink.mode ≠ .stopped then .next { s with out := .start .ok }
      else if k then .next { s with sink := { s.sink with mode := .running }, out := .start .ok }
      else .next { s with sink := ⟨[], 0, .noop⟩, out := .start .deviceUnavailable } := rfl

theorem exec_stop (s : State) :
    exec .stop s =
      if s.sink.mode = .stopped then .next { s with out := .blocks [] }
      else
        .next
          { s with
            sink := ⟨[], 0, .stopped⟩
            out := .blocks
              (if s.sink.mode = .running ∧ s.cfg.stopPolicy = .drain then drainBlocks s.cfg.blockSize s.sink else []) } :=
  rfl

theorem exec_render (p : RenderParams) (s : State) :
    exec (.render p) s =
      if 63 < p.p8.toNat then .next { s with out := .fault (.invalidPhonemeCode p.p8), faulted := true }
      else .next { s with out := .buffer (renderBuffer s.cfg p) } := by
  by_cases h : 63 < p.p8.toNat <;> simp [exec, execRender, renderChecked, h]

theorem exec_enq (b : Buffer) (s : State) :
    exec (.enq b) s =
      .next
        { s with
          sink := { s.sink with q := s.sink.q ++ (if queueTakes s.cfg s.sink then [b] else []) }
          out := .enq (if queueFull s.cfg s.sink then .full else .ok)
          enqFull := queueFull s.cfg s.sink } := by
  simp only [exec, execEnq, finish_eq, enqueueIn_eq]

end Sys2Proof.Machine
end

