-- ==== Sys2Proof/Laws/OpcodeTable.lean ====
section
/-! SUPPORT. The rows of spec/opcode_table.json as data, and that no command word fits two rows. -/

namespace Sys2Proof.Laws

/-- One row of the table: its mnemonic and the command words it covers. -/
structure OpcodeRow where
  mnemonic : String
  pattern  : BitVec 16
  mask     : BitVec 16
deriving DecidableEq, Repr

/-- The row covers the command word. -/
def OpcodeRow.covers (r : OpcodeRow) (w : CmdWord) : Bool := w &&& r.mask == r.pattern

/-- The rows of format W. -/
def writeRows : List OpcodeRow :=
  [⟨"WR_DURPHON", 0x0000, 0xFF00⟩, ⟨"WR_INFL", 0x0100, 0xFF00⟩, ⟨"WR_RATEINF", 0x0200, 0xFF00⟩,
    ⟨"WR_CTLARTAMP", 0x0300, 0xFF00⟩, ⟨"WR_FILTER", 0x0400, 0xFF00⟩, ⟨"WR_INVALID", 0x0500, 0xFF00⟩,
    ⟨"WR_INVALID", 0x0600, 0xFE00⟩]

/-- The rows of format R. -/
def readRows : List OpcodeRow :=
  [⟨"RD_STATUS", 0x1000, 0xFFFF⟩, ⟨"RD_INVALID", 0x1100, 0xFFFF⟩, ⟨"RD_INVALID", 0x1200, 0xFEFF⟩,
    ⟨"RD_INVALID", 0x1400, 0xFCFF⟩]

/-- The rows of the other formats. -/
def otherRows : List OpcodeRow :=
  [⟨"RESET", 0x2000, 0xFFFF⟩, ⟨"IACK", 0x3000, 0xFFFF⟩, ⟨"ADVANCE", 0x4000, 0xFFFF⟩, ⟨"PULL", 0x5000, 0xFFFF⟩,
    ⟨"START", 0x6000, 0xFFFE⟩, ⟨"STOP", 0x7000, 0xFFFF⟩, ⟨"RENDER", 0x8000, 0xFFFF⟩, ⟨"ENQ", 0x9000, 0xFFFF⟩]

/-- The nineteen rows. -/
def opcodeTable : List OpcodeRow := writeRows ++ readRows ++ otherRows

/-- The mnemonic of an instruction, as the table writes it. -/
def mnemonicOf : Instr → String
  | .wrDurphon _ => "WR_DURPHON"
  | .wrInfl _ => "WR_INFL"
  | .wrRateinf _ => "WR_RATEINF"
  | .wrCtlartamp _ => "WR_CTLARTAMP"
  | .wrFilter _ => "WR_FILTER"
  | .wrInvalid _ _ => "WR_INVALID"
  | .rdStatus => "RD_STATUS"
  | .rdInvalid _ => "RD_INVALID"
  | .reset => "RESET"
  | .iack => "IACK"
  | .advance _ => "ADVANCE"
  | .pull => "PULL"
  | .start _ => "START"
  | .stop => "STOP"
  | .render _ => "RENDER"
  | .enq _ => "ENQ"

/-- Any two rows differ in a bit that both fix, so no command word fits both. -/
theorem opcodeTable_rows_disjoint :
    opcodeTable.Pairwise fun a b => (a.pattern ^^^ b.pattern) &&& a.mask &&& b.mask ≠ 0 := by decide

/-- The rows cover 2065 command words between them (30_encoding.md R100): a row covers one word for each setting of the bits
its mask leaves open. -/
theorem opcodeTable_covers_2065 :
    (opcodeTable.map fun r => 2 ^ ((List.range 16).filter fun k => !r.mask.getLsbD k).length).sum = 2065 := by decide

end Sys2Proof.Laws
end

