-- ==== Sys2Proof/Laws/Operands.lean ====
section
/-! SUPPORT. The fields of the data bytes and the two inflection insertions as numbers. -/

namespace Sys2Proof.Machine

theorem fieldDm_toNat (d : Byte) : (fieldDm d).toNat = d.toNat / 64 := by
  have := d.isLt
  simp only [fieldDm, BitVec.extractLsb'_toNat, Nat.shiftRight_eq_div_pow]; omega

theorem fieldPh_toNat (d : Byte) : (fieldPh d).toNat = d.toNat % 64 := by
  simp [fieldPh, BitVec.extractLsb'_toNat]

theorem fieldRate_toNat (d : Byte) : (fieldRate d).toNat = d.toNat / 16 := by
  have := d.isLt
  simp only [fieldRate, BitVec.extractLsb'_toNat, Nat.shiftRight_eq_div_pow]; omega

theorem fieldArt_toNat (d : Byte) : (fieldArt d).toNat = d.toNat / 16 % 8 := by
  simp only [fieldArt, BitVec.extractLsb'_toNat, Nat.shiftRight_eq_div_pow]

theorem fieldAmp_toNat (d : Byte) : (fieldAmp d).toNat = d.toNat % 16 := by
  simp [fieldAmp, BitVec.extractLsb'_toNat]

/-- The middle insertion keeps bit 11 and bits 2:0 (R102). -/
theorem insertInfMiddle_toNat (v : BitVec 12) (d : Byte) :
    (insertInfMiddle v d).toNat = v.toNat / 2048 * 2048 + d.toNat * 8 + v.toNat % 8 := by
  have := v.isLt
  show (v.extractLsb' 11 1 ++ d ++ v.extractLsb' 0 3 : BitVec (1 + 8 + 3)).toNat = _
  simp only [toNat_append_add, BitVec.extractLsb'_toNat, Nat.shiftRight_eq_div_pow]; omega

/-- The outer insertion keeps bits 10:3 (R103). -/
theorem insertInfOuter_toNat (v : BitVec 12) (d : Byte) :
    (insertInfOuter v d).toNat = d.toNat / 8 % 2 * 2048 + v.toNat / 8 % 256 * 8 + d.toNat % 8 := by
  show (d.extractLsb' 3 1 ++ v.extractLsb' 3 8 ++ d.extractLsb' 0 3 : BitVec (1 + 8 + 3)).toNat = _
  simp only [toNat_append_add, BitVec.extractLsb'_toNat, Nat.shiftRight_eq_div_pow]; omega

end Sys2Proof.Machine
end

