-- ==== Sys2Proof/Laws/PerInstr.lean ====
section
/-! SUPPORT. The one family of statements over the constructors of `Instr`: each well-formed instruction is encoded by a
command word of a row of the opcode table that carries its mnemonic. -/

namespace Sys2Proof.Laws

/-- The word of a write with address `a` fits a row that fixes the upper byte. -/
theorem covers_write (a : BitVec 3) (d : Byte) (m : String) :
    OpcodeRow.covers ⟨m, cmdWord 0x0 a 0, 0xFF00⟩ (cmdWord 0x0 a d) = true := by
  have key : ∀ (a : BitVec 3) (d : Byte), cmdWord 0x0 a d &&& 0xFF00 = cmdWord 0x0 a 0 := by
    intro a d
    apply BitVec.eq_of_getLsbD_eq
    intro i hi
    have hm : (0xFF00 : BitVec 16).getLsbD i = decide (8 ≤ i) := by
      revert i
      decide
    by_cases h8 : i < 8
    · have h0 : (cmdWord 0x0 a 0).getLsbD i = false := by
        unfold cmdWord
        rw [BitVec.getLsbD_append, if_pos h8]
        simp
      have hm' : (0xFF00 : BitVec 16).getLsbD i = false := by rw [hm]; simp; omega
      rw [BitVec.getLsbD_and, hm', h0, Bool.and_false]
    · have hm' : (0xFF00 : BitVec 16).getLsbD i = true := by rw [hm]; simp; omega
      rw [BitVec.getLsbD_and, hm', Bool.and_true]
      unfold cmdWord
      rw [BitVec.getLsbD_append (y := d), if_neg h8, BitVec.getLsbD_append (y := (0 : Byte)), if_neg h8]
  simp only [OpcodeRow.covers, key, beq_self_eq_true]

end Sys2Proof.Laws

namespace Sys2Proof.Laws.TableRow

/-- The instruction is well formed only with operands for which some row of its mnemonic covers its word. -/
def Statement (i : Instr) : Prop :=
  i.wf = true → ∃ r ∈ opcodeTable, r.mnemonic = mnemonicOf i ∧ r.covers (encode i).cmd = true

theorem wrDurphon (d : Byte) : Statement (.wrDurphon d) := fun _ =>
  ⟨⟨"WR_DURPHON", 0x0000, 0xFF00⟩, by decide, rfl, covers_write 0 d _⟩

theorem wrInfl (d : Byte) : Statement (.wrInfl d) := fun _ =>
  ⟨⟨"WR_INFL", 0x0100, 0xFF00⟩, by decide, rfl, covers_write 1 d _⟩

theorem wrRateinf (d : Byte) : Statement (.wrRateinf d) := fun _ =>
  ⟨⟨"WR_RATEINF", 0x0200, 0xFF00⟩, by decide, rfl, covers_write 2 d _⟩

theorem wrCtlartamp (d : Byte) : Statement (.wrCtlartamp d) := fun _ =>
  ⟨⟨"WR_CTLARTAMP", 0x0300, 0xFF00⟩, by decide, rfl, covers_write 3 d _⟩

theorem wrFilter (d : Byte) : Statement (.wrFilter d) := fun _ =>
  ⟨⟨"WR_FILTER", 0x0400, 0xFF00⟩, by decide, rfl, covers_write 4 d _⟩

theorem wrInvalid (a : BitVec 3) (d : Byte) : Statement (.wrInvalid a d) := fun h => by
  have hw : ∀ a : BitVec 3, 5 ≤ a.toNat →
      (a = 5 ∧ cmdWord 0x0 a 0 = 0x0500) ∨ (cmdWord 0x0 a 0 &&& 0xFE00 = 0x0600) := by decide
  have h5 : 5 ≤ a.toNat := by simpa [Instr.wf] using h
  have hc := covers_write a d "WR_INVALID"
  simp only [OpcodeRow.covers, beq_iff_eq] at hc
  rcases hw a h5 with ⟨rfl, h1⟩ | h1
  · exact ⟨⟨"WR_INVALID", 0x0500, 0xFF00⟩, by decide, rfl, covers_write 5 d _⟩
  · refine ⟨⟨"WR_INVALID", 0x0600, 0xFE00⟩, by decide, rfl, ?_⟩
    simp only [OpcodeRow.covers, beq_iff_eq]
    rw [← hc, BitVec.and_assoc] at h1
    exact h1

theorem rdStatus : Statement .rdStatus := fun _ =>
  ⟨⟨"RD_STATUS", 0x1000, 0xFFFF⟩, by decide, rfl, by decide⟩

theorem rdInvalid (a : BitVec 3) : Statement (.rdInvalid a) := by
  revert a
  unfold Statement
  decide

theorem reset : Statement .reset := fun _ => ⟨⟨"RESET", 0x2000, 0xFFFF⟩, by decide, rfl, by decide⟩

theorem iack : Statement .iack := fun _ => ⟨⟨"IACK", 0x3000, 0xFFFF⟩, by decide, rfl, by decide⟩

theorem advance (n : Nat) : Statement (.advance n) := fun _ => ⟨⟨"ADVANCE", 0x4000, 0xFFFF⟩, by decide, rfl, by simp only [encode]; decide⟩

theorem pull : Statement .pull := fun _ => ⟨⟨"PULL", 0x5000, 0xFFFF⟩, by decide, rfl, by decide⟩

theorem start (k : Bool) : Statement (.start k) := fun _ =>
  ⟨⟨"START", 0x6000, 0xFFFE⟩, by decide, rfl, by cases k <;> decide⟩

theorem stop : Statement .stop := fun _ => ⟨⟨"STOP", 0x7000, 0xFFFF⟩, by decide, rfl, by decide⟩

theorem render (p : RenderParams) : Statement (.render p) := fun _ =>
  ⟨⟨"RENDER", 0x8000, 0xFFFF⟩, by decide, rfl, by simp only [encode]; decide⟩

theorem enq (b : Buffer) : Statement (.enq b) := fun _ => ⟨⟨"ENQ", 0x9000, 0xFFFF⟩, by decide, rfl, by simp only [encode]; decide⟩

end Sys2Proof.Laws.TableRow
end

