-- ==== Sys2Proof/Laws/Pipeline.lean ====
section
/-! SUPPORT. What each stage of the renderer can do: the length of its output, interpolation at whole positions and between
bounds, and that all-zero inputs stay all zero. -/

namespace Sys2Proof.Machine

/-! ## Lengths -/

@[simp] theorem length_ampScale (x : List Sample) (amp : BitVec 4) : (ampScale x amp).length = x.length := by
  simp [ampScale]

@[simp] theorem length_applyFilter (f : FilterModel) (ff : BitVec 8) (x : List Sample) :
    (applyFilter f ff x).length = x.length := by
  cases f with
  | identity => rfl
  | other k => simp only [applyFilter]; split <;> simp

@[simp] theorem length_filterStage (cfg : Config) (x : List Sample) (ff : BitVec 8) :
    (filterStage cfg x ff).length = x.length := by
  unfold filterStage
  split <;> simp

@[simp] theorem length_groupMeans (g : Nat) (x : List Sample) : (groupMeans g x).length = x.length / g := by
  simp [groupMeans]

@[simp] theorem length_stretch (x : List Sample) (n : Nat) : (stretch x n).length = n := by
  unfold stretch
  split <;> simp

/-- The samples of the stretch of a non-empty sequence (R199). -/
theorem getElem?_stretch {x : List Sample} {n i : Nat} (hx : x ≠ []) (hi : i < n) :
    (stretch x n)[i]? = some (lerp x ((i : Rat) * (x.length : Rat) / (n : Rat))) := by
  simp [stretch, hx, hi]

@[simp] theorem length_align (cfg : Config) (x : List Sample) (dm : BitVec 2) (rate : BitVec 4) :
    (align cfg x dm rate).length = alignedLength cfg dm rate := length_stretch _ _

@[simp] theorem length_pitch (x : List Sample) (inf : BitVec 12) :
    (pitch x inf).length = pitchedLength x.length inf := by simp [pitch]

@[simp] theorem length_normalize (cfg : Config) (x : List Sample) : (normalize cfg x).length = x.length := by
  simp [normalize]

/-- The samples of the last stage (R206). -/
@[simp] theorem getElem?_normalize (cfg : Config) (x : List Sample) (j : Nat) :
    (normalize cfg x)[j]? = x[j]?.map fun v => quantise cfg.fq (v / ((2 ^ (cfg.sampleW - 1) : Nat) : Rat)) := by
  simp [normalize]

/-- The length of a rendered buffer depends on the configuration's sample rate and three operands only. -/
theorem length_renderBuffer (cfg : Config) (p : RenderParams) :
    (renderBuffer cfg p).pcm.length = pitchedLength (alignedLength cfg p.dm p.rate) p.inf := by
  simp [renderBuffer]

/-! ## Interpolation -/

theorem getD_mem {x : List Sample} {k : Nat} (h : k < x.length) (d : Sample) : x.getD k d ∈ x := by
  rw [List.getD_eq_getElem?_getD, List.getElem?_eq_getElem h]
  exact List.getElem_mem h

theorem floor_toNat_cast {p : Rat} (hp : 0 ≤ p) : ((p.floor.toNat : Nat) : Rat) = ((p.floor : Int) : Rat) := by
  have h0 : (0 : Int) ≤ p.floor := Rat.le_floor_iff.mpr (by simpa using hp)
  exact_mod_cast congrArg (Int.cast (R := Rat)) (Int.toNat_of_nonneg h0)

/-- The natural number of R200's `k <- floor(p)`. -/
theorem floor_toNat_eq {p : Rat} {k : Nat} (hk : (k : Rat) ≤ p) (hp : p < (k : Rat) + 1) : p.floor.toNat = k := by
  have h1 : (k : Int) ≤ p.floor := Rat.le_floor_iff.mpr (by exact_mod_cast hk)
  have h2 : p.floor < (k : Int) + 1 := Rat.floor_lt_iff.mpr (by push_cast; exact_mod_cast hp)
  omega

/-- Below the last sample interpolation is the weighted mean of two neighbours (R200). -/
theorem lerp_of_lt {x : List Sample} {p : Rat} {k : Nat} (hk : (k : Rat) ≤ p) (hp : p < (k : Rat) + 1)
    (h : k + 1 < x.length) : lerp x p = x.getD k 0 * (1 - (p - k)) + x.getD (k + 1) 0 * (p - k) := by
  unfold lerp
  simp only [floor_toNat_eq hk hp]
  rw [if_neg (by omega)]

/-- From the last sample on it is held (R200). -/
theorem lerp_of_last {x : List Sample} {p : Rat} {k : Nat} (hk : (k : Rat) ≤ p) (hp : p < (k : Rat) + 1)
    (h : x.length ≤ k + 1) : lerp x p = x.getD (x.length - 1) 0 := by
  unfold lerp
  simp only [floor_toNat_eq hk hp]
  rw [if_pos (by omega)]

/-- At a whole position interpolation reads the sample there, the last one being held. -/
theorem lerp_natCast (x : List Sample) (k : Nat) : lerp x (k : Rat) = x.getD (min k (x.length - 1)) 0 := by
  have hfl : ((k : Nat) : Rat).floor = (k : Int) := by exact_mod_cast Rat.floor_intCast (k : Int)
  have hf : ((k : Nat) : Rat).floor.toNat = k := by rw [hfl]; rfl
  unfold lerp
  simp only [hf]
  split
  · next h => rw [Nat.min_eq_right h]
  · next h => rw [Nat.min_eq_left (by omega)]; simp

/-- Interpolation stays between any bounds of its input. -/
theorem lerp_bounds {x : List Sample} {p lo hi : Rat} (hp : 0 ≤ p) (hx : x ≠ []) (h : ∀ v ∈ x, lo ≤ v ∧ v ≤ hi) :
    lo ≤ lerp x p ∧ lerp x p ≤ hi := by
  have hl : 0 < x.length := List.length_pos_of_ne_nil hx
  have hc := floor_toNat_cast hp
  unfold lerp
  simp only
  split
  · exact h _ (getD_mem (by omega) 0)
  · next hk =>
    have h1 := h _ (getD_mem (x := x) (k := p.floor.toNat) (by omega) 0)
    have h2 := h _ (getD_mem (x := x) (k := p.floor.toNat + 1) (by omega) 0)
    have hf0 : ((p.floor.toNat : Nat) : Rat) ≤ p := by rw [hc]; exact Rat.floor_le p
    have hf1 : p - ((p.floor.toNat : Nat) : Rat) ≤ 1 := by
      rw [hc]
      have := Rat.lt_floor_add_one p
      push_cast at this
      linarith
    constructor <;> nlinarith

/-! ## Silence -/

@[simp] theorem mem_zeros {v : Sample} {n : Nat} : v ∈ zeros n ↔ n ≠ 0 ∧ v = 0 := by simp [zeros]

/-- A sequence is all zero when each of its samples is. -/
theorem eq_zeros_iff (x : List Sample) : x = zeros x.length ↔ ∀ v ∈ x, v = 0 := by
  simp [zeros, List.eq_replicate_iff]

theorem getD_zeros (n k : Nat) : (zeros n).getD k 0 = 0 := by
  simp only [zeros, List.getD_eq_getElem?_getD, List.getElem?_replicate]
  split <;> rfl

@[simp] theorem lerp_zeros (n : Nat) (p : Rat) : lerp (zeros n) p = 0 := by
  unfold lerp
  simp only [getD_zeros, zero_mul, add_zero, ite_self]

theorem map_zero_range (n : Nat) (f : Nat → Sample) (h : ∀ k, f k = 0) : (List.range n).map f = zeros n := by
  rw [funext h]
  simp [zeros, List.map_const']

@[simp] theorem groupMeans_zeros (g n : Nat) : groupMeans g (zeros n) = zeros (n / g) := by
  unfold groupMeans
  rw [length_zeros]
  apply map_zero_range
  intro k
  simp only [getD_zeros, List.map_const', List.sum_replicate, smul_zero, zero_div]

/-- Averaging keeps silence. -/
theorem average_zeros (n : Nat) (dm : BitVec 2) : ∃ m, average (zeros n) dm = zeros m := by
  unfold average
  split
  · exact ⟨_, groupMeans_zeros 2 n⟩
  · exact ⟨_, groupMeans_zeros 4 n⟩
  · exact ⟨n, rfl⟩

@[simp] theorem stretch_zeros (m n : Nat) : stretch (zeros m) n = zeros n := by
  unfold stretch
  split
  · rfl
  · exact map_zero_range _ _ fun k => lerp_zeros _ _

@[simp] theorem align_zeros (cfg : Config) (n : Nat) (dm : BitVec 2) (rate : BitVec 4) :
    align cfg (zeros n) dm rate = zeros (alignedLength cfg dm rate) := by
  obtain ⟨m, hm⟩ := average_zeros n dm
  simp [align, hm]

@[simp] theorem pitch_zeros (n : Nat) (inf : BitVec 12) : pitch (zeros n) inf = zeros (pitchedLength n inf) := by
  unfold pitch
  rw [length_zeros]
  exact map_zero_range _ _ fun k => lerp_zeros _ _

/-- Every quantiser of the model keeps 0 (R6, `FQ(0) = 0`). -/
@[simp] theorem quantise_zero (f : Quantiser) : quantise f 0 = 0 := by cases f <;> simp [quantise]

@[simp] theorem normalize_zeros (cfg : Config) (n : Nat) : normalize cfg (zeros n) = zeros n := by
  simp [normalize, zeros]

@[simp] theorem ampScale_zeros (n : Nat) (amp : BitVec 4) : ampScale (zeros n) amp = zeros n := by
  simp [ampScale, zeros]

/-- Every filter of the model keeps silence (U5). -/
@[simp] theorem filterStage_zeros (cfg : Config) (n : Nat) (ff : BitVec 8) : filterStage cfg (zeros n) ff = zeros n := by
  unfold filterStage
  split
  · rw [length_zeros]
  · cases cfg.filt with
    | identity => rfl
    | other k => simp [applyFilter]

end Sys2Proof.Machine
end

