-- ==== Sys2Proof/Laws/Step.lean ====
section
/-! SUPPORT. What any operation and any step can do: the parts of the state that none of them touches, and the cases of a
step that completes. -/

namespace Sys2Proof.Machine

/-- No operation changes the configuration or the commands still to come. -/
theorem exec_cfg_cmds {i : Instr} {s t : State} (h : exec i s = .next t) : t.cfg = s.cfg ∧ t.cmds = s.cmds := by
  cases i with
  | wrDurphon d => rw [exec_wrDurphon] at h; split at h <;> (try split at h) <;> cases h <;> exact ⟨rfl, rfl⟩
  | wrCtlartamp d => rw [exec_wrCtlartamp] at h; split at h <;> (try split at h) <;> cases h <;> exact ⟨rfl, rfl⟩
  | advance n => rw [exec_advance] at h; split at h <;> cases h; exact ⟨rfl, rfl⟩
  | pull => rw [exec_pull] at h; split at h <;> cases h; exact ⟨rfl, rfl⟩
  | start k => rw [exec_start] at h; split at h <;> (try split at h) <;> cases h <;> exact ⟨rfl, rfl⟩
  | stop => rw [exec_stop] at h; split at h <;> cases h <;> exact ⟨rfl, rfl⟩
  | render p => rw [exec_render] at h; split at h <;> cases h <;> exact ⟨rfl, rfl⟩
  | enq b => rw [exec_enq] at h; cases h; exact ⟨rfl, rfl⟩
  | wrInfl d => cases h; exact ⟨rfl, rfl⟩
  | wrRateinf d => cases h; exact ⟨rfl, rfl⟩
  | wrFilter d => cases h; exact ⟨rfl, rfl⟩
  | wrInvalid a d => cases h; exact ⟨rfl, rfl⟩
  | rdStatus => cases h; exact ⟨rfl, rfl⟩
  | rdInvalid a => cases h; exact ⟨rfl, rfl⟩
  | reset => cases h; exact ⟨rfl, rfl⟩
  | iack => cases h; exact ⟨rfl, rfl⟩

/-- An operation completes or is refused for one of the two reasons of an operation (60_exceptions.md R264). -/
theorem exec_next_or_refused (i : Instr) (s : State) :
    (∃ t, exec i s = .next t) ∨ exec i s = .refused .cycleOverflow ∨ exec i s = .refused .pullNotRunning := by
  cases i with
  | wrDurphon d => rw [exec_wrDurphon]; split <;> (try split) <;> simp
  | wrCtlartamp d => rw [exec_wrCtlartamp]; split <;> (try split) <;> simp
  | advance n => rw [exec_advance]; split <;> simp
  | pull => rw [exec_pull]; split <;> simp
  | start k => rw [exec_start]; split <;> (try split) <;> simp
  | stop => rw [exec_stop]; split <;> simp
  | render p => rw [exec_render]; split <;> simp
  | enq b => rw [exec_enq]; simp
  | wrInfl d => exact .inl ⟨_, rfl⟩
  | wrRateinf d => exact .inl ⟨_, rfl⟩
  | wrFilter d => exact .inl ⟨_, rfl⟩
  | wrInvalid a d => exact .inl ⟨_, rfl⟩
  | rdStatus => exact .inl ⟨_, rfl⟩
  | rdInvalid a => exact .inl ⟨_, rfl⟩
  | reset => exact .inl ⟨_, rfl⟩
  | iack => exact .inl ⟨_, rfl⟩

/-- What follows an operation is a deassertion, or nothing. -/
theorem afterOp_eq (i : Instr) (s : State) :
    afterOp i s = if acksAfter s.cfg i then { s with chip := deassertIrq s.chip } else s := rfl

/-- Under the spec's default nothing follows an operation (U3). -/
theorem acksAfter_default {cfg : Config} (h : cfg.acks = []) (i : Instr) : acksAfter cfg i = false := by
  unfold acksAfter
  cases busOpOf i <;> simp [h]

/-- A step on a legal command under a well-formed configuration. -/
theorem step_cons {s : State} {c : Command} {rest : List Command} {i : Instr} (hc : s.cmds = c :: rest)
    (hd : decode c = .ok i) (hk : configOk s.cfg = true) :
    step s = match exec i { s with cmds := rest } with
      | .next t => .next (afterOp i t)
      | .fault f => .fault f
      | .refused r => .refused r := by
  cases h : exec i { s with cmds := rest } <;> simp only [step, hc, hd, hk, h, if_true]

/-- A step that completes is idle, or one operation and what follows it. -/
theorem step_next_cases {s t : State} (h : step s = .next t) :
    (s.cmds = [] ∧ t = s)
    ∨ ∃ c rest i u, s.cmds = c :: rest ∧ decode c = .ok i ∧ configOk s.cfg = true
        ∧ exec i { s with cmds := rest } = .next u ∧ t = afterOp i u := by
  cases hc : s.cmds with
  | nil =>
    simp only [step, hc] at h
    cases h
    exact .inl ⟨rfl, rfl⟩
  | cons c rest =>
    cases hd : decode c with
    | error e => simp [step, hc, hd] at h
    | ok i =>
      cases hk : configOk s.cfg with
      | false => simp [step, hc, hd, hk] at h
      | true =>
        rw [step_cons hc hd hk] at h
        cases he : exec i { s with cmds := rest } with
        | next u => rw [he] at h; cases h; exact .inr ⟨c, rest, i, u, rfl, hd, rfl, he, rfl⟩
        | fault f => rw [he] at h; cases h
        | refused r => rw [he] at h; cases h

/-! ## What an operation does to the chip and to the sink -/

/-- The storing of a data byte leaves the runtime state of the chip. -/
theorem registersOf_runtime (i : Instr) (c : Chip) :
    (registersOf i c).spk = c.spk ∧ (registersOf i c).pend = c.pend ∧ (registersOf i c).cyc = c.cyc
    ∧ (registersOf i c).irq = c.irq ∧ (registersOf i c).log = c.log := by
  cases i <;> exact ⟨rfl, rfl, rfl, rfl, rfl⟩

theorem firesOn_advance (n : Nat) (s : State) :
    firesOn (.advance n) s = true ↔ ∃ target, s.chip.pend = some target ∧ target ≤ s.chip.cyc + n := by
  unfold firesOn
  split <;> simp_all

/-- The chip after an operation that completes: after a play event, an ADVANCE, a RESET, an IACK, a write that only stores,
or as it was. -/
theorem exec_chip_cases {i : Instr} {s t : State} (h : exec i s = .next t) :
    (playsOn i s = true ∧ playTarget s.cfg (registersOf i s.chip) < 2 ^ s.cfg.cycleW
      ∧ t = playedState { s with chip := registersOf i s.chip })
    ∨ (playsOn i s = false ∧ ∃ n, i = .advance n ∧ s.chip.cyc + n < 2 ^ s.cfg.cycleW
        ∧ t.chip = fireIfDue { s.chip with cyc := s.chip.cyc + n })
    ∨ (playsOn i s = false ∧ i = .reset ∧ t.chip = resetChip s.chip)
    ∨ (playsOn i s = false ∧ i = .iack ∧ t.chip = deassertIrq s.chip)
    ∨ (playsOn i s = false ∧ ∃ d,
        (i = .wrDurphon d ∧ t.chip = storeDurPhon d s.chip) ∨ (i = .wrInfl d ∧ t.chip = storeInfl d s.chip)
        ∨ (i = .wrRateinf d ∧ t.chip = storeRateInf d s.chip)
        ∨ (i = .wrCtlartamp d ∧ t.chip = storeCtlArtAmp d s.chip) ∨ (i = .wrFilter d ∧ t.chip = storeFilter d s.chip))
    ∨ (playsOn i s = false ∧ t.chip = s.chip ∧ (∀ n, i ≠ .advance n) ∧ i ≠ .reset ∧ i ≠ .iack) := by
  cases i with
  | wrDurphon d =>
    rw [exec_wrDurphon] at h
    split at h
    · next h1 => cases h; simp [playsOn, h1]
    · next h1 =>
      split at h <;> cases h
      next h2 => exact .inl ⟨by simp [playsOn, h1], Nat.lt_of_not_le h2, rfl⟩
  | wrCtlartamp d =>
    rw [exec_wrCtlartamp] at h
    split at h
    · next h1 =>
      split at h <;> cases h
      next h2 => exact .inl ⟨h1, Nat.lt_of_not_le h2, rfl⟩
    · next h1 => cases h; simp only [playsOn, Bool.eq_false_iff.mpr h1]; simp
  | advance n =>
    rw [exec_advance] at h
    split at h <;> cases h
    next h1 => exact .inr (.inl ⟨rfl, n, rfl, Nat.lt_of_not_le h1, rfl⟩)
  | pull => rw [exec_pull] at h; split at h <;> cases h; simp [playsOn]
  | start k => rw [exec_start] at h; split at h <;> (try split at h) <;> cases h <;> simp [playsOn]
  | stop => rw [exec_stop] at h; split at h <;> cases h <;> simp [playsOn]
  | render p => rw [exec_render] at h; split at h <;> cases h <;> simp [playsOn]
  | enq b => rw [exec_enq] at h; cases h; simp [playsOn]
  | reset => cases h; simp [playsOn]
  | iack => cases h; simp [playsOn]
  | wrInfl d => cases h; simp [playsOn]
  | wrRateinf d => cases h; simp [playsOn]
  | wrFilter d => cases h; simp [playsOn]
  | wrInvalid a d => cases h; simp [playsOn]
  | rdStatus => cases h; simp [playsOn]
  | rdInvalid a => cases h; simp [playsOn]

/-- The sink after an operation that completes: as it was, with one buffer more, after a PULL, opened, or emptied. -/
theorem exec_sink_cases {i : Instr} {s t : State} (h : exec i s = .next t) :
    (t.sink = s.sink ∧ acceptedBy i s = [] ∧ discards i s = false ∧ i ≠ .pull)
    ∨ (∃ b : Buffer,
        t.sink = { s.sink with q := s.sink.q ++ (if queueTakes s.cfg s.sink then [b] else []) }
        ∧ acceptedBy i s = (if queueTakes s.cfg s.sink then b.pcm else []) ∧ discards i s = false ∧ i ≠ .pull)
    ∨ (i = .pull ∧ s.sink.mode = .running ∧ t.sink = (pullBody s.cfg.blockSize s.sink).2
        ∧ t.out = .block (pullBody s.cfg.blockSize s.sink).1)
    ∨ (discards i s = false ∧ i = .start true ∧ s.sink.mode = .stopped
        ∧ t.sink = { s.sink with mode := .running })
    ∨ (discards i s = true ∧ (t.sink = ⟨[], 0, .noop⟩ ∨ t.sink = ⟨[], 0, .stopped⟩)) := by
  cases i with
  | wrDurphon d =>
    rw [exec_wrDurphon] at h
    split at h
    · next h1 => cases h; exact .inl ⟨rfl, by simp [acceptedBy, playsOn, h1], rfl, by simp⟩
    · next h1 =>
      split at h <;> cases h
      refine .inr (.inl ⟨renderBuffer s.cfg (playParams (registersOf (.wrDurphon d) s.chip)), rfl, ?_, rfl, by simp⟩)
      simp [acceptedBy, playsOn, h1]
  | wrCtlartamp d =>
    rw [exec_wrCtlartamp] at h
    split at h
    · next h1 =>
      split at h <;> cases h
      refine .inr (.inl ⟨renderBuffer s.cfg (playParams (registersOf (.wrCtlartamp d) s.chip)), rfl, ?_, rfl, by simp⟩)
      have hp : playsOn (.wrCtlartamp d) s = true := h1
      simp only [acceptedBy, hp, if_true]
    · next h1 =>
      cases h
      have hp : playsOn (.wrCtlartamp d) s = false := Bool.eq_false_iff.mpr h1
      exact .inl ⟨rfl, by simp [acceptedBy, hp], rfl, by simp⟩
  | advance n => rw [exec_advance] at h; split at h <;> cases h; simp [acceptedBy, discards]
  | pull =>
    rw [exec_pull] at h
    split at h <;> cases h
    next h => exact .inr (.inr (.inl ⟨rfl, h, rfl, rfl⟩))
  | start k =>
    rw [exec_start] at h
    split at h <;> (try split at h) <;> cases h
    · next h => simp [acceptedBy, discards, h]
    · next h h' => subst h'; simp at h; simp [discards, h]
    · next h h' => simp at h h'; simp [discards, h, h']
  | stop =>
    rw [exec_stop] at h
    split at h <;> cases h
    · next h => simp [acceptedBy, discards, h]
    · next h => simp [discards, h]
  | render p => rw [exec_render] at h; split at h <;> cases h <;> simp [acceptedBy, discards]
  | enq b => rw [exec_enq] at h; cases h; exact .inr (.inl ⟨b, rfl, rfl, rfl, by simp⟩)
  | reset => cases h; simp [acceptedBy, discards]
  | iack => cases h; simp [acceptedBy, discards]
  | wrInfl d => cases h; simp [acceptedBy, discards]
  | wrRateinf d => cases h; simp [acceptedBy, discards]
  | wrFilter d => cases h; simp [acceptedBy, discards]
  | wrInvalid a d => cases h; simp [acceptedBy, discards]
  | rdStatus => cases h; simp [acceptedBy, discards]
  | rdInvalid a => cases h; simp [acceptedBy, discards]

end Sys2Proof.Machine
end

