-- ==== Sys2Proof/Tests/Slice0.lean ====
section
/-! SUPPORT. The model's own tests: ill-formed terms, words written out from the formats of 30_encoding.md, the worked
examples of the rules, and for each statement with hypotheses a state and operands that meet them. Every expected value is
copied from the rule named beside it. -/

namespace Sys2Proof.Tests

open Sys2Proof Sys2Proof.Machine

/-! ## Helpers -/

/-- The chip after an operation. -/
def chipOf (o : Host.Outcome State Fault Refusal) : Option Chip :=
  match o with
  | .next t => some t.chip
  | .fault _ => none
  | .refused _ => none

/-- The sink after an operation. -/
def sinkOf (o : Host.Outcome State Fault Refusal) : Option Sink :=
  match o with
  | .next t => some t.sink
  | .fault _ => none
  | .refused _ => none

/-- The result of an operation. -/
def outOf (o : Host.Outcome State Fault Refusal) : Option Result :=
  match o with
  | .next t => some t.out
  | .fault _ => none
  | .refused _ => none

/-- The reason of a refusal. -/
def refusalOf (o : Host.Outcome State Fault Refusal) : Option Refusal :=
  match o with
  | .next _ => none
  | .fault _ => none
  | .refused r => some r

/-- The instruction a command word with no extension operand decodes to. -/
def decodes (w : CmdWord) (e : Ext) : Option Instr :=
  match decode ⟨w, e⟩ with
  | .ok i => some i
  | .error _ => none

/-- The reset state with another chip. -/
def withChip (c : Chip) : State := { State.reset with chip := c }

/-- The reset state with another sink. -/
def withSink (k : Sink) : State := { State.reset with sink := k }

/-- An active chip at rate 15 and mode 3, whose phonemes take 4 cycles (R161), at the given cycle. -/
def activeAt (cyc : Nat) : State :=
  withChip { Chip.powerOn with ctl := false, rate := 15, dm := 3, cyc := cyc }

/-- A chip in standby at rate 15 and mode 3, at the given cycle. -/
def standbyAt (cyc : Nat) : State := withChip { Chip.powerOn with rate := 15, dm := 3, cyc := cyc }

/-- A speaking chip with the target 1064 of the example of R172, at the given cycle. -/
def speakingAt (cyc : Nat) : State :=
  withChip { Chip.powerOn with ctl := false, rate := 15, dm := 3, cyc := cyc, pend := some 1064, spk := true }

/-- A buffer with the given samples. -/
def buf (x : List Sample) : Buffer := ⟨x, 16⟩

/-- A running sink with the given queue and read position. -/
def running (q : List Buffer) (hpos : Nat) : State := withSink ⟨q, hpos, .running⟩

/-! ## Well-formedness: the two operand ranges -/

theorem test_wf_wrInvalid_rejects_4 : (Instr.wrInvalid 4 0x12).wf = false := by decide

theorem test_wf_wrInvalid_accepts_5 : (Instr.wrInvalid 5 0x12).wf = true := by decide

theorem test_wf_rdInvalid_rejects_0 : (Instr.rdInvalid 0).wf = false := by decide

theorem test_wf_rdInvalid_accepts_1 : (Instr.rdInvalid 1).wf = true := by decide

/-! ## Decoding: each operation's word from the formats R93 to R99 and the map R100 -/

theorem test_decode_wrDurphon : decodes 0b0000_0_000_11_000101 .none = some (.wrDurphon 0xC5) := by decide

theorem test_decode_wrInfl : decodes 0b0000_0_001_10000001 .none = some (.wrInfl 0x81) := by decide

theorem test_decode_wrRateinf : decodes 0b0000_0_010_0101_1_001 .none = some (.wrRateinf 0x59) := by decide

theorem test_decode_wrCtlartamp : decodes 0b0000_0_011_1_010_0011 .none = some (.wrCtlartamp 0xA3) := by decide

theorem test_decode_wrFilter : decodes 0b0000_0_100_01000000 .none = some (.wrFilter 0x40) := by decide

theorem test_decode_wrInvalid_5 : decodes 0b0000_0_101_00010010 .none = some (.wrInvalid 5 0x12) := by decide

theorem test_decode_wrInvalid_7 : decodes 0b0000_0_111_00010010 .none = some (.wrInvalid 7 0x12) := by decide

theorem test_decode_rdStatus : decodes 0b0001_0_000_00000000 .none = some .rdStatus := by decide

theorem test_decode_rdInvalid_1 : decodes 0b0001_0_001_00000000 .none = some (.rdInvalid 1) := by decide

theorem test_decode_rdInvalid_7 : decodes 0b0001_0_111_00000000 .none = some (.rdInvalid 7) := by decide

theorem test_decode_reset : decodes 0b0010_000000000000 .none = some .reset := by decide

theorem test_decode_iack : decodes 0b0011_000000000000 .none = some .iack := by decide

theorem test_decode_advance : decodes 0b0100_000000000000 (.cycles 64) = some (.advance 64) := by decide

theorem test_decode_pull : decodes 0b0101_000000000000 .none = some .pull := by decide

theorem test_decode_start : decodes 0b0110_00000000000_1 .none = some (.start true) := by decide

theorem test_decode_stop : decodes 0b0111_000000000000 .none = some .stop := by decide

/-- The word of `RENDER 3, 3, 12, 2048, 15, 0` (R111). -/
theorem test_decode_render :
    decodes 0b1000_000000000000 (.rpw 0b00000011_11_1100_100000000000_1111_00000000) =
      some (.render ⟨3, 3, 12, 2048, 15, 0⟩) := by decide

theorem test_decode_enq : decodes 0b1001_000000000000 (.buffer ⟨[], 16⟩) = some (.enq ⟨[], 16⟩) := by decide

/-- R108 (b), (a), (c), (d), (e), (f), one word each. -/
theorem test_decode_refuses :
    decode ⟨0b0010_1_00000000000, .none⟩ = .error .reservedBitSet
    ∧ decode ⟨0b1010_000000000000, .none⟩ = .error .reservedOp
    ∧ decode ⟨0b0001_0_000_00000001, .none⟩ = .error .readDataNotZero
    ∧ decode ⟨0b0101_000100000000, .none⟩ = .error .fieldNotZero
    ∧ decode ⟨0b0110_00000000001_1, .none⟩ = .error .startFieldNotZero
    ∧ decode ⟨0b0100_000000000000, .none⟩ = .error .wrongExt := ⟨rfl, rfl, rfl, rfl, rfl, rfl⟩

/-- A table word of 16 bits, and one of 54 bits whose upper 38 are the parameter word. -/
theorem test_decodeTableWord :
    decodeTableWord 16 0x00C5 = some (.wrDurphon 0xC5)
    ∧ decodeTableWord 54 (0x00FC800F00 * 2 ^ 16 + 0x8000) = some (.render ⟨3, 3, 12, 2048, 15, 0⟩)
    ∧ decodeTableWord 16 0x2800 = none := by decide

/-! ## Register bus: the examples of R131 to R139 -/

theorem test_wrDurphon_plays :
    (chipOf (exec (.wrDurphon 0xC5) (withChip { Chip.powerOn with ctl := false, cyc := 1000 }))).map
        (fun c => (c.dm, c.ph, c.spk, c.pend, c.log)) =
      some (3, 5, true, some 1064, [.play 5 3 64]) := by decide

theorem test_wrDurphon_only_stores_in_standby :
    (chipOf (exec (.wrDurphon 0xC5) State.reset)).map (fun c => (c.dm, c.ph, c.spk, c.log)) =
      some (3, 5, false, []) := by decide

theorem test_wrInfl_keeps_outer_bits :
    (chipOf (exec (.wrInfl 0xFF) (withChip { Chip.powerOn with inf := 0x805 }))).map (fun c => c.inf) =
      some 0xFFD := by decide

theorem test_wrRateinf_keeps_middle_bits :
    (chipOf (exec (.wrRateinf 0xFF) (withChip { Chip.powerOn with inf := 0x800 }))).map (fun c => (c.rate, c.inf)) =
      some (15, 0x807) := by decide

theorem test_wrCtlartamp_wakes :
    (chipOf (exec (.wrCtlartamp 0x0F) State.reset)).map (fun c => (c.ctl, c.amp, c.spk, c.pend, c.log)) =
      some (false, 15, true, some 256, [.play 0 0 256]) := by decide

/-- Going to standby leaves the pending interrupt (D14). -/
theorem test_wrCtlartamp_to_standby :
    (chipOf (exec (.wrCtlartamp 0xA3) (speakingAt 1000))).map (fun c => (c.ctl, c.art, c.amp, c.spk, c.pend)) =
      some (true, 2, 3, true, some 1064) := by decide

theorem test_wrFilter_stores :
    (chipOf (exec (.wrFilter 0xFF) State.reset)).map (fun c => c.ff) = some 255 := by decide

theorem test_wrInvalid_faults :
    outOf (exec (.wrInvalid 5 0x12) State.reset) = some (.fault (.invalidRegisterAddress 5 .write)) := by decide

theorem test_rdStatus_speaking : outOf (exec .rdStatus (speakingAt 1000)) = some (.status 0x80) := by decide

theorem test_rdInvalid_faults :
    outOf (exec (.rdInvalid 3) State.reset) = some (.fault (.invalidRegisterAddress 3 .read)) := by decide

/-! ## Scheduler: the examples of R167, R172, R176, R178, R181 -/

/-- The example of R167: the line is deasserted before the play. -/
theorem test_play_deasserts_first :
    (chipOf (exec (.wrDurphon 0x87) (withChip { Chip.powerOn with ctl := false, rate := 12, cyc := 500, irq := true }))).map
        (fun c => (c.irq, c.spk, c.pend, c.log)) =
      some (false, true, some 532, [.irqDeassert, .play 7 2 32]) := by decide

theorem test_advance_below_target :
    (chipOf (exec (.advance 63) (speakingAt 1000))).map (fun c => (c.cyc, c.irq, c.pend, c.spk, c.log)) =
      some (1063, false, some 1064, true, []) := by decide

theorem test_advance_fires :
    (chipOf (exec (.advance 64) (speakingAt 1000))).map (fun c => (c.cyc, c.irq, c.pend, c.spk, c.log)) =
      some (1064, true, none, false, [.irqAssert]) := by decide

theorem test_iack_deasserts :
    (chipOf (exec .iack (withChip { Chip.powerOn with irq := true }))).map (fun c => (c.irq, c.log)) =
      some (false, [.irqDeassert]) := by decide

/-- The example of R181. -/
theorem test_reset_restores :
    chipOf (exec .reset (withChip ⟨3, 5, 0x800, 7, false, 2, 9, 0x40, true, some 900, 850, false, []⟩)) =
      some { Chip.powerOn with cyc := 850 } := by decide

/-! ## Renderer: the examples of R190 and R192 -/

theorem test_render_example :
    outOf (exec (.render ⟨3, 3, 12, 2048, 15, 0⟩) State.reset) =
      some (.buffer ⟨[1125 / 8192, 375 / 2048, 1875 / 8192, 1875 / 8192], 16⟩) := by decide +kernel

theorem test_render_phoneme_64_faults :
    outOf (exec (.render ⟨64, 0, 0, 2048, 15, 0⟩) State.reset) = some (.fault (.invalidPhonemeCode 64)) := by decide

/-! ## Audio queue: the examples of R231 to R245 -/

theorem test_enq_full :
    outOf (exec (.enq (buf [])) (running [buf [], buf []] 0)) = some (.enq .full) := by decide

theorem test_pull_across_buffers :
    outOf (exec .pull (running [buf [1, 2, 3], buf [4, 5]] 1)) = some (.block ⟨[2, 3, 4, 5], false⟩) := by decide +kernel

theorem test_pull_leaves_empty_queue :
    sinkOf (exec .pull (running [buf [1, 2, 3], buf [4, 5]] 1)) = some ⟨[], 0, .running⟩ := by decide

theorem test_start_unavailable :
    (outOf (exec (.start false) State.reset), sinkOf (exec (.start false) State.reset)) =
      (some (.start .deviceUnavailable), some ⟨[], 0, .noop⟩) := by decide

theorem test_stop_discards :
    sinkOf (exec .stop (running [buf [1, 2, 3, 4], buf [5]] 3)) = some ⟨[], 0, .stopped⟩ := by decide

/-- R245 with R = 5 and BLOCK_SIZE = 4: two blocks, the second padded. -/
theorem test_drain_two_blocks :
    drainBlocks 4 ⟨[buf [1, 2, 3], buf [4, 5, 6]], 1, .running⟩ = [⟨[2, 3, 4, 5], false⟩, ⟨[6, 0, 0, 0], true⟩] := by
  decide +kernel

/-! ## Views: the event word of R116, the ports of R119, a pseudo-instruction of R118 -/

theorem test_eventWord_play : eventWord (.play 5 3 64) = 0b10_000101_11_001000000 := by decide

theorem test_ports_after_fault :
    portFlt { State.reset with out := .fault (.invalidPhonemeCode 64) } = 2 := by decide

/-- The port `FULL` after an operation. -/
def fullOf (o : Host.Outcome State Fault Refusal) : Option Bool :=
  match o with
  | .next t => some (portFull t)
  | .fault _ => none
  | .refused _ => none

/-- A play event into a full queue and one into a queue with room, then the same for ENQ (R119, R231). -/
theorem test_port_full :
    fullOf (exec (.wrDurphon 0xC5) { activeAt 0 with sink := (running [buf [], buf []] 0).sink }) = some true
    ∧ fullOf (exec (.wrDurphon 0xC5) { activeAt 0 with enqFull := true }) = some false
    ∧ fullOf (exec (.enq (buf [])) (running [buf [], buf []] 0)) = some true
    ∧ fullOf (exec (.enq (buf [])) { running [buf []] 0 with enqFull := true }) = some false := ⟨rfl, rfl, rfl, rfl⟩

/-- `SETINF 7, 0x805`: the words 0x0100 and 0x027D (0x805 has bit 11 set, bits 10:3 zero and bits 2:0 five). -/
theorem test_setinf_words : (asmSetinf 7 0x805).map (fun c => c.cmd) = [0x0100, 0x027D] := by decide

/-! ## Witnesses: for each statement with hypotheses, data that meet them, clause by clause at the ends of its ranges -/

/-- A state with one command waiting. -/
def waiting (c : Command) : State := { State.reset with cmds := [c] }

/-- The command `RD 0`. -/
def readStatus : Command := ⟨0x1000, .none⟩

/-- The last cycle, one below `2 ^ CYCLE_W` of EX1. -/
def lastCycle : Nat := 2 ^ 64 - 1

theorem legal_readStatus : LegalCommand readStatus :=
  ⟨by decide, by decide, by decide, by decide, by decide, by decide⟩

theorem chipInv_speakingAt_1000 : ChipInv Config.ex1 (speakingAt 1000).chip :=
  ⟨by decide, by decide, by decide, by intro target h; cases h; decide⟩

theorem sinkInv_running : SinkInv Config.ex1 (running [buf [1, 2, 3], buf [4]] 1).sink :=
  ⟨by decide, by decide, by intro b rest h; cases h; decide, by decide⟩

theorem test_meets_DecodeOfEncodeIsIdentity : (Instr.wrInvalid 5 0).wf = true ∧ (Instr.rdInvalid 7).wf = true := by decide

theorem test_meets_EncodeOfDecodeIsIdentity : decode ⟨0x0700, .none⟩ = .ok (.wrInvalid 7 0) := rfl

theorem test_meets_StepRefusesExactlyIllegalCommands :
    (waiting readStatus).cmds = [readStatus] ∧ LegalCommand readStatus ∧ ¬ LegalCommand ⟨0x1800, .none⟩ :=
  ⟨rfl, legal_readStatus, fun h => absurd h.z_zero (by decide)⟩

theorem test_meets_RenderParameterWordFields : (decodeRpw (64 * 2 ^ 30)).p8.toNat = 64 := by decide

theorem test_meets_StepRunsDecodedOperation :
    decode readStatus = .ok .rdStatus ∧ configOk (waiting readStatus).cfg = true ∧ (waiting readStatus).cfg.acks = []
    ∧ (∃ t, exec .rdStatus { waiting readStatus with cmds := [] } = .next t)
    ∧ exec .pull { waiting ⟨0x5000, .none⟩ with cmds := [] } = .refused .pullNotRunning
    ∧ acksAfter { Config.ex1 with acks := [.rdStatus] } .rdStatus = true :=
  ⟨rfl, by decide, rfl, ⟨_, rfl⟩, rfl, by decide⟩

theorem test_meets_IdleStepChangesNothing : State.reset.cmds = [] := rfl

/-- One configuration for each way to break a constraint of R6. -/
theorem test_meets_IllFormedConfigurationIsRefused :
    { Config.ex1 with clockHz := 0 }.clockHz = 0 ∧ { Config.ex1 with fs := 0 }.fs = 0
    ∧ { Config.ex1 with queueDepth := 0 }.queueDepth = 0 ∧ { Config.ex1 with blockSize := 0 }.blockSize = 0
    ∧ { Config.ex1 with table := [] }.table.length ≠ 62
    ∧ (∃ e ∈ Config.ex1.table, { Config.ex1 with pcm := [] }.pcm.length < e.offset + e.length)
    ∧ (∃ v ∈ { Config.ex1 with pcm := [32768] }.pcm, (2 : Int) ^ (16 - 1) ≤ v)
    ∧ (∃ v ∈ { Config.ex1 with pcm := [-32769] }.pcm, v < -(2 : Int) ^ (16 - 1)) ∧ LegalCommand readStatus :=
  ⟨rfl, rfl, rfl, rfl, by decide, ⟨⟨0, 16⟩, by decide, by decide⟩, ⟨32768, by decide, by decide⟩,
    ⟨-32769, by decide, by decide⟩, legal_readStatus⟩

theorem test_meets_StepKeepsConfiguration : ∃ t, step (waiting readStatus) = .next t := ⟨_, rfl⟩

theorem test_meets_OperationsCompleteUnlessRefused :
    State.reset.chip.cyc + lastCycle < 2 ^ State.reset.cfg.cycleW
    ∧ playsOn (.wrDurphon 0xC5) (activeAt (lastCycle - 4)) = true
    ∧ playTarget Config.ex1 (registersOf (.wrDurphon 0xC5) (activeAt (lastCycle - 4)).chip) = lastCycle
    ∧ (running [] 0).sink.mode = .running := by decide

theorem test_meets_WriteDurphonStoresThenPlaysIfActive :
    State.reset.chip.ctl = true
    ∧ (activeAt (lastCycle - 4)).chip.ctl = false
    ∧ playTarget Config.ex1 (registersOf (.wrDurphon 0xC5) (activeAt (lastCycle - 4)).chip) < 2 ^ Config.ex1.cycleW
    ∧ 2 ^ Config.ex1.cycleW ≤ playTarget Config.ex1 (registersOf (.wrDurphon 0xC5) (activeAt (lastCycle - 3)).chip) := by
  decide

theorem test_meets_WriteCtlartampPlaysOnWakeUpOnly :
    ¬ ((activeAt 0).chip.ctl = true ∧ (0x0F : Byte).getLsbD 7 = false)
    ∧ ¬ ((standbyAt 0).chip.ctl = true ∧ (0x8F : Byte).getLsbD 7 = false)
    ∧ (standbyAt (lastCycle - 4)).chip.ctl = true ∧ (0x0F : Byte).getLsbD 7 = false
    ∧ playTarget Config.ex1 (registersOf (.wrCtlartamp 0x0F) (standbyAt (lastCycle - 4)).chip) < 2 ^ Config.ex1.cycleW
    ∧ 2 ^ Config.ex1.cycleW ≤ playTarget Config.ex1 (registersOf (.wrCtlartamp 0x0F) (standbyAt (lastCycle - 3)).chip) := by
  decide

theorem test_meets_SetinfSetsInflectionAndRate :
    { State.reset with cmds := asmSetinf 7 0x805 }.cmds = asmSetinf 7 0x805 ∧ configOk Config.ex1 = true
    ∧ Config.ex1.acks = [] := ⟨rfl, by decide, rfl⟩

theorem test_meets_InvalidRegisterAddressFaults : 5 ≤ (5 : BitVec 3).toNat ∧ 1 ≤ (1 : BitVec 3).toNat := by decide

theorem test_meets_StatusReadReturnsSpeakingBit : State.reset.cfg.statusSpkBit = 7 := rfl

/-- Two states that differ in a control register. -/
theorem test_meets_RegisterBusReturnsNoRegister :
    busOpOf .rdStatus ≠ none ∧ State.reset.cfg = (activeAt 0).cfg ∧ State.reset.chip.spk = (activeAt 0).chip.spk
    ∧ State.reset.chip ≠ (activeAt 0).chip
    ∧ (∃ t, exec .rdStatus State.reset = .next t) ∧ (∃ t, exec .rdStatus (activeAt 0) = .next t) :=
  ⟨by decide, rfl, rfl, by decide, ⟨_, rfl⟩, ⟨_, rfl⟩⟩

theorem test_meets_PlayEventsAreTriggeredExactlyByTheTable :
    playsOn (.wrDurphon 0xC5) (activeAt 0) = true ∧ (∃ t, exec (.wrDurphon 0xC5) (activeAt 0) = .next t)
    ∧ playsOn (.wrInfl 0xC5) (activeAt 0) = false ∧ (∃ t, exec (.wrInfl 0xC5) (activeAt 0) = .next t) :=
  ⟨rfl, ⟨_, rfl⟩, rfl, ⟨_, rfl⟩⟩

theorem test_meets_RegisterWriteFrame :
    (∃ t, exec (.wrDurphon 0xC5) (activeAt 0) = .next t)
    ∧ playsOn (.wrCtlartamp 0x0F) (activeAt 0) = false ∧ (∃ t, exec (.wrCtlartamp 0x0F) (activeAt 0) = .next t) :=
  ⟨⟨_, rfl⟩, rfl, ⟨_, rfl⟩⟩

theorem test_meets_ArticulationHasNoEffect : ∃ t, exec (.wrCtlartamp 0x0F) (standbyAt 0) = .next t := ⟨_, rfl⟩

theorem test_meets_DurationFallsAsRateOrModeRises : (14 : BitVec 4) < 15 ∧ (2 : BitVec 2) < 3 := by decide

/-- The new target is 1004; ADVANCE 3 stays below it and ADVANCE 4 reaches it. -/
theorem test_meets_RetriggerOverwritesPendingInterrupt :
    (speakingAt 1000).chip.ctl = false ∧ (speakingAt 1000).chip.pend = some 1064 ∧ (speakingAt 1000).chip.cyc < 1064
    ∧ playTarget Config.ex1 (registersOf (.wrDurphon 0xC5) (speakingAt 1000).chip) = 1004
    ∧ (∃ t u v, exec (.wrDurphon 0xC5) (speakingAt 1000) = .next t ∧ exec (.advance 3) t = .next u
        ∧ exec (.advance 1) u = .next v)
    ∧ (∃ t u v, exec (.wrDurphon 0xC5) (speakingAt 1000) = .next t ∧ exec (.advance 4) t = .next u
        ∧ exec (.advance 100) u = .next v) :=
  ⟨rfl, rfl, by decide, by decide, ⟨_, _, _, rfl, rfl, rfl⟩, ⟨_, _, _, rfl, rfl, rfl⟩⟩

theorem test_meets_AdvanceFiresWhenTargetReached :
    2 ^ Config.ex1.cycleW ≤ (speakingAt 1000).chip.cyc + (2 ^ 64 - 1000)
    ∧ (speakingAt 1000).chip.cyc + 64 < 2 ^ Config.ex1.cycleW
    ∧ (speakingAt 1000).chip.pend = some 1064 ∧ 1064 ≤ (speakingAt 1000).chip.cyc + 64
    ∧ (∀ target, (speakingAt 1000).chip.pend = some target → (speakingAt 1000).chip.cyc + 63 < target) :=
  ⟨by decide, by decide, rfl, by decide, by intro target h; cases h; decide⟩

theorem test_meets_AdvanceSplits : ∃ t, exec (.advance 63) (speakingAt 1000) = .next t := ⟨_, rfl⟩

theorem test_meets_IackDeassertsTheLine :
    (withChip { Chip.powerOn with irq := true }).chip.irq = true ∧ State.reset.chip.irq = false := ⟨rfl, rfl⟩

theorem test_meets_InterruptLineIsALevel :
    (∃ t, exec (.advance 64) (speakingAt 1000) = .next t ∧ t.chip.irq = true)
    ∧ (∃ t, exec .iack (withChip { Chip.powerOn with irq := true }) = .next t ∧ t.chip.irq = false) :=
  ⟨⟨_, rfl, rfl⟩, ⟨_, rfl, rfl⟩⟩

theorem test_meets_SpeakingFlagChanges :
    (∃ t, exec (.wrDurphon 0xC5) (activeAt 0) = .next t ∧ t.chip.spk = true)
    ∧ (∃ t, exec (.advance 64) (speakingAt 1000) = .next t ∧ t.chip.spk = false)
    ∧ (∃ t, exec .reset (speakingAt 1000) = .next t ∧ t.chip.spk = false) :=
  ⟨⟨_, rfl, rfl⟩, ⟨_, rfl, rfl⟩, ⟨_, rfl, rfl⟩⟩

theorem test_meets_OnlyAdvanceMovesTheCounter :
    (∃ t, exec (.advance 5) State.reset = .next t ∧ t.chip.cyc = 5) ∧ (∃ t, exec .reset (activeAt 7) = .next t) :=
  ⟨⟨_, rfl, rfl⟩, ⟨_, rfl⟩⟩

theorem test_meets_PowerStateChanges :
    (∃ t, exec (.wrCtlartamp 0x80) (activeAt 0) = .next t ∧ t.chip.ctl = true)
    ∧ (∃ t, exec .reset (activeAt 0) = .next t ∧ t.chip.ctl = true) := ⟨⟨_, rfl, rfl⟩, ⟨_, rfl, rfl⟩⟩

theorem test_meets_LogRecordsEveryChangeOfTheLine :
    ChipInv (speakingAt 1000).cfg (speakingAt 1000).chip
    ∧ (∃ t, exec (.advance 64) (speakingAt 1000) = .next t ∧ t.chip.irq = true) :=
  ⟨chipInv_speakingAt_1000, ⟨_, rfl, rfl⟩⟩

theorem test_meets_InterruptPhasesFollowTheTable :
    irqPhase (activeAt 0).chip = some .idle ∧ irqPhase (speakingAt 1000).chip = some .scheduled
    ∧ irqPhase { Chip.powerOn with irq := true } = some .asserted
    ∧ (∃ t, exec (.wrDurphon 0xC5) (activeAt 0) = .next t) ∧ (∃ t, exec (.advance 64) (speakingAt 1000) = .next t)
    ∧ (∃ t, exec .iack (withChip { Chip.powerOn with irq := true }) = .next t) :=
  ⟨rfl, rfl, rfl, ⟨_, rfl⟩, ⟨_, rfl⟩, ⟨_, rfl⟩⟩

theorem test_meets_ResetIsIdempotent :
    ∃ t, exec .reset (withChip { Chip.powerOn with irq := true }) = .next t ∧ t.chip.log = [.irqDeassert] := ⟨_, rfl, rfl⟩

theorem test_meets_FaultListIsComplete :
    (∃ t, exec (.wrInvalid 5 0) State.reset = .next t ∧ t.out = .fault (.invalidRegisterAddress 5 .write))
    ∧ (∃ t, exec (.rdInvalid 1) State.reset = .next t ∧ t.out = .fault (.invalidRegisterAddress 1 .read))
    ∧ (∃ t, exec (.render ⟨64, 0, 0, 0, 0, 0⟩) State.reset = .next t ∧ t.out = .fault (.invalidPhonemeCode 64)) :=
  ⟨⟨_, rfl, rfl⟩, ⟨_, rfl, rfl⟩, ⟨_, rfl, rfl⟩⟩

theorem test_meets_RenderReturnsTheBufferOnly : (63 : BitVec 8).toNat ≤ 63 ∧ 64 ≤ (64 : BitVec 8).toNat := by decide

theorem test_meets_LookupReadsItsEntryInBounds :
    configOk Config.ex1 = true ∧ (0 : BitVec 8).toNat ≤ 63 ∧ (1 : BitVec 8) ≠ 0 ∧ (63 : BitVec 8).toNat ≤ 63
    ∧ (63 : BitVec 8) ≠ 0 := by decide

theorem test_meets_AmplitudeScalesLinearly : 0 < ([1] : List Sample).length := by decide

theorem test_meets_FilterSilencesOnlyAtFF : Config.ex1.filt = .identity ∧ (0xFE : BitVec 8) ≠ 0xFF := by decide

theorem test_meets_AveragingByDurationMode :
    0 < ([1, 2] : List Sample).length / 2 ∧ 0 < ([1, 2, 3, 4] : List Sample).length / 4 := by decide

/-- Of two samples, the position 0 is the last whole one below the last sample, and 1 and 3/2 are not below it. -/
theorem test_meets_StretchHitsTheTargetLength :
    ([1, 2] : List Sample).length = 2 ∧ ([1, 2] : List Sample).head? = some 1 ∧ ([1] : List Sample) ≠ []
    ∧ (∀ v ∈ ([1] : List Sample), (1 : Rat) ≤ v ∧ v ≤ 1)
    ∧ ([1, 2] : List Sample) ≠ [] ∧ ((0 : Nat) : Rat) ≤ 0 ∧ (0 : Rat) < (0 : Nat) + 1 ∧ 0 + 1 < ([1, 2] : List Sample).length
    ∧ ((1 : Nat) : Rat) ≤ 3 / 2 ∧ (3 / 2 : Rat) < (1 : Nat) + 1 ∧ ¬ 1 + 1 < ([1, 2] : List Sample).length :=
  ⟨rfl, rfl, by simp, by simp, by simp, by norm_num, by norm_num, by simp, by norm_num, by norm_num, by simp⟩

/-- The example of R199: four samples from two. -/
theorem test_stretch_example : stretch [4500, 7500] 4 = [4500, 6000, 7500, 7500] := by decide +kernel

/-- The example of R206. -/
theorem test_normalize_example :
    normalize Config.ex1 [4500, 6000, 7500, 7500] = [1125 / 8192, 375 / 2048, 1875 / 8192, 1875 / 8192] := by
  decide +kernel

theorem test_meets_PitchStageLengthAndNeutral : ([1] : List Sample) ≠ [] ∧ 0 < (pitch [1] 4095).length :=
  ⟨by simp, by decide⟩

theorem test_meets_SilenceCases :
    (⟨3, 0, 15, 0, 0, 0⟩ : RenderParams).amp = 0 ∧ (⟨3, 0, 15, 0, 15, 0xFF⟩ : RenderParams).ff = 0xFF
    ∧ (⟨0, 0, 15, 0, 15, 0⟩ : RenderParams).p8 = 0 := ⟨rfl, rfl, rfl⟩

/-- The buffer is not empty, so the statement is about some sample. -/
theorem test_meets_RenderedSamplesAreInUnitRange :
    configOk Config.ex1 = true ∧ Config.ex1.filt = .identity ∧ Config.ex1.fq = .identity
    ∧ (renderBuffer Config.ex1 ⟨3, 3, 15, 4095, 15, 0⟩).pcm.length = 1 ∧ 0 < ([1] : List Sample).length :=
  ⟨by decide, rfl, rfl, by decide, by decide⟩

theorem test_meets_EnqueueAppendsOrAnswersFull :
    (withSink ⟨[], 0, .noop⟩).sink.mode = .noop
    ∧ (running [buf [], buf []] 0).sink.q.length = Config.ex1.queueDepth
    ∧ (running [buf []] 0).sink.q.length ≠ Config.ex1.queueDepth ∧ (running [buf []] 0).sink.mode ≠ .noop := by decide

theorem test_meets_PullDeliversTheNextBlock :
    (running [buf [1, 2, 3], buf [4]] 1).sink.mode = .running
    ∧ SinkInv Config.ex1 (running [buf [1, 2, 3], buf [4]] 1).sink := ⟨rfl, sinkInv_running⟩

theorem test_meets_PullCornerCases :
    (running [] 0).sink.mode = .running ∧ 0 < Config.ex1.blockSize ∧ (running [] 0).sink.hpos = 0
    ∧ (running [] 0).sink.q = [] ∧ (∀ b ∈ (running [buf [], buf []] 0).sink.q, b.pcm = [])
    ∧ (running [buf [1, 2, 3, 4]] 0).sink.q = [buf [1, 2, 3, 4]]
    ∧ (buf [1, 2, 3, 4]).pcm.length = Config.ex1.blockSize :=
  ⟨rfl, by decide, rfl, rfl, by simp [running, withSink, buf], rfl, rfl⟩

theorem test_meets_StartOpensOrDegrades :
    (running [] 0).sink.mode ≠ .stopped ∧ (withSink ⟨[], 0, .noop⟩).sink.mode ≠ .stopped
    ∧ State.reset.sink.mode = .stopped := by decide

theorem test_meets_StopEmptiesTheQueue :
    State.reset.sink.mode = .stopped ∧ (withSink ⟨[], 0, .noop⟩).sink.mode = .noop
    ∧ (running [buf [1]] 0).sink.mode = .running ∧ (running [buf [1]] 0).cfg.stopPolicy = .discard
    ∧ { running [buf [1]] 0 with cfg := { Config.ex1 with stopPolicy := .drain } }.cfg.stopPolicy = .drain :=
  ⟨rfl, rfl, rfl, rfl, rfl⟩

theorem test_meets_DrainPlaysOutTheQueue :
    0 < Config.ex1.blockSize ∧ SinkInv Config.ex1 (running [buf [1, 2, 3], buf [4]] 1).sink :=
  ⟨by decide, sinkInv_running⟩

theorem test_meets_SinkOperationsLeaveTheChip :
    (∃ t, exec .pull (running [buf [1]] 0) = .next t) ∧ (∃ t, exec .stop (running [buf [1]] 0) = .next t)
    ∧ (∃ t, exec (.enq (buf [1])) State.reset = .next t) ∧ (∃ t, exec (.start true) State.reset = .next t)
    ∧ (∃ t, exec (.render ⟨3, 3, 12, 2048, 15, 0⟩) State.reset = .next t) :=
  ⟨⟨_, rfl⟩, ⟨_, rfl⟩, ⟨_, rfl⟩, ⟨_, rfl⟩, ⟨_, rfl⟩⟩

theorem test_meets_StepKeepsInvariant :
    Inv { speakingAt 1000 with sink := (running [buf [1, 2, 3], buf [4]] 1).sink, cmds := [⟨0x5000, .none⟩] }
    ∧ (∃ t, step { speakingAt 1000 with sink := (running [buf [1, 2, 3], buf [4]] 1).sink, cmds := [⟨0x5000, .none⟩] } =
        .next t) :=
  ⟨⟨chipInv_speakingAt_1000, sinkInv_running⟩, ⟨_, rfl⟩⟩

/-- A run that accepts a buffer, plays, and pulls across the boundary of two buffers. -/
theorem test_meets_QueueDeliversEverySampleOnceInOrder :
    SinkInv (running [] 0).cfg (running [] 0).sink
    ∧ (∃ d a u, fifoRun [.enq (buf [1, 2, 3]), .enq (buf [4, 5]), .pull, .iack] (running [] 0) = some (d, a, u)
        ∧ d.length = 4 ∧ a.length = 5 ∧ (pendingSamples u.sink).length = 1) :=
  ⟨⟨by decide, by decide, (by intro b rest h; cases h), by decide⟩, ⟨_, _, _, rfl, rfl, rfl, rfl⟩⟩

/-- An active chip whose play event meets a full queue in one run and not in the other. -/
theorem test_meets_ChipIsTheSameInEveryInterleaving :
    hostOps [.pull, .wrDurphon 0xC5, .pull, .advance 4] = hostOps [.wrDurphon 0xC5, .advance 4]
    ∧ (∃ t, runOps [.pull, .wrDurphon 0xC5, .pull, .advance 4]
        { activeAt 0 with sink := (running [buf [1], buf [2]] 0).sink } = .next t
        ∧ t.chip.log = [.play 5 3 4, .irqAssert])
    ∧ (∃ t, runOps [.wrDurphon 0xC5, .advance 4]
        { activeAt 0 with sink := (running [buf [1], buf [2]] 0).sink } = .next t
        ∧ t.chip.log = [.play 5 3 4, .drop, .irqAssert]) :=
  ⟨rfl, ⟨_, rfl, rfl⟩, ⟨_, rfl, rfl⟩⟩

/-! ## Reset -/

theorem test_reset_config_ok : configOk Config.ex1 = true := by decide

end Sys2Proof.Tests
end

/-! SUPPORT. When the decoder accepts a command: format by format, and for every command against R108. -/

namespace Sys2Proof.Machine

/-! ## The type of the extension operand -/

theorem extFits_none {op : Nat} (h4 : op ≠ 0x4) (h8 : op ≠ 0x8) (h9 : op ≠ 0x9) (e : Ext) :
    extFits op e = true ↔ e = .none := by
  cases e <;> simp [extFits, h4, h8, h9]

theorem extFits_cycles (e : Ext) : extFits 0x4 e = true ↔ ∃ n, e = .cycles n := by
  cases e <;> simp [extFits]

theorem extFits_rpw (e : Ext) : extFits 0x8 e = true ↔ ∃ w, e = .rpw w := by
  cases e <;> simp [extFits]

theorem extFits_buffer (e : Ext) : extFits 0x9 e = true ↔ ∃ b, e = .buffer b := by
  cases e <;> simp [extFits]

/-! ## The formats -/

/-- A check in front of a format's reading, which is the shape of the decoder and of every format but W. -/
theorem checked_ok_iff (p : Prop) [Decidable p] (e : DecodeError) (r : Except DecodeError Instr) :
    (∃ i, (if p then .error e else r) = .ok i) ↔ ¬ p ∧ ∃ i, r = .ok i := by
  by_cases h : p <;> simp [h]

/-- Every data byte and every address of format W is accepted (R109). -/
theorem decodeWrite_ok_iff (c : Command) : (∃ i, decodeWrite c = .ok i) ↔ c.ext = .none := by
  unfold decodeWrite
  cases c.ext with
  | none => refine iff_of_true ?_ rfl; dsimp only; split <;> exact ⟨_, rfl⟩
  | cycles n => simp
  | rpw w => simp
  | buffer b => simp

theorem decodeRead_ok_iff (c : Command) : (∃ i, decodeRead c = .ok i) ↔ c.data = 0 ∧ c.ext = .none := by
  rw [decodeRead, checked_ok_iff, not_ne_iff]
  refine and_congr_right' ?_
  cases c.ext with
  | none => refine iff_of_true ?_ rfl; dsimp only; split <;> exact ⟨_, rfl⟩
  | cycles n => simp
  | rpw w => simp
  | buffer b => simp

theorem decodeStrobe_ok_iff (i : Instr) (c : Command) :
    (∃ j, decodeStrobe i c = .ok j) ↔ c.cmd.extractLsb' 0 12 = 0 ∧ c.ext = .none := by
  rw [decodeStrobe, checked_ok_iff, not_ne_iff]
  cases c.ext <;> simp

theorem decodeAdvance_ok_iff (c : Command) :
    (∃ j, decodeAdvance c = .ok j) ↔ c.cmd.extractLsb' 0 12 = 0 ∧ ∃ n, c.ext = .cycles n := by
  rw [decodeAdvance, checked_ok_iff, not_ne_iff]
  cases c.ext <;> simp

theorem decodeStart_ok_iff (c : Command) :
    (∃ j, decodeStart c = .ok j) ↔ c.cmd.extractLsb' 1 11 = 0 ∧ c.ext = .none := by
  rw [decodeStart, checked_ok_iff, not_ne_iff]
  cases c.ext <;> simp

theorem decodeRender_ok_iff (c : Command) :
    (∃ j, decodeRender c = .ok j) ↔ c.cmd.extractLsb' 0 12 = 0 ∧ ∃ w, c.ext = .rpw w := by
  rw [decodeRender, checked_ok_iff, not_ne_iff]
  cases c.ext <;> simp

theorem decodeEnq_ok_iff (c : Command) :
    (∃ j, decodeEnq c = .ok j) ↔ c.cmd.extractLsb' 0 12 = 0 ∧ ∃ b, c.ext = .buffer b := by
  rw [decodeEnq, checked_ok_iff, not_ne_iff]
  cases c.ext <;> simp

/-! ## The decoder -/

/-- The cases of R108 over the fields that the decoder reads, in place of the numbers of `LegalCommand`. -/
theorem legalCommand_iff_fields (c : Command) :
    LegalCommand c ↔
      c.z = 0 ∧ c.op.toNat < 0xA ∧ (c.op.toNat = 0x1 → c.data = 0)
      ∧ (c.op.toNat = 0x6 → c.cmd.extractLsb' 1 11 = 0)
      ∧ (0x2 ≤ c.op.toNat → c.op.toNat ≠ 0x6 → c.cmd.extractLsb' 0 12 = 0) ∧ extFits c.op.toNat c.ext = true := by
  have hz : c.z = 0 ↔ c.cmd.toNat / 2 ^ 11 % 2 = 0 := by rw [← z_toNat]; exact BitVec.toNat_inj.symm
  have hd : c.data = 0 ↔ c.cmd.toNat % 2 ^ 8 = 0 := by rw [← data_toNat]; exact BitVec.toNat_inj.symm
  have hs : c.cmd.extractLsb' 1 11 = 0 ↔ c.cmd.toNat / 2 % 2 ^ 11 = 0 := by
    rw [← startField_toNat]; exact BitVec.toNat_inj.symm
  have hl : c.cmd.extractLsb' 0 12 = 0 ↔ c.cmd.toNat % 2 ^ 12 = 0 := by
    rw [← low12_toNat]; exact BitVec.toNat_inj.symm
  rw [op_toNat, hz, hd, hs, hl]
  exact ⟨fun ⟨ho, hz, hr, hs, hf, he⟩ => ⟨hz, ho, hr, hs, hf, he⟩,
    fun ⟨hz, ho, hr, hs, hf, he⟩ => ⟨ho, hz, hr, hs, hf, he⟩⟩

/-- The decoder accepts exactly the commands that none of the cases of R108 excludes. -/
theorem decode_ok_iff_legalCommand (c : Command) : (∃ i, decode c = .ok i) ↔ LegalCommand c := by
  rw [legalCommand_iff_fields, decode, checked_ok_iff, not_ne_iff]
  refine and_congr_right' ?_
  split
  case h_1 h => simp [h, decodeWrite_ok_iff, extFits_none]
  case h_2 h => simp [h, decodeRead_ok_iff, extFits_none]
  case h_3 h => simp [h, decodeStrobe_ok_iff, extFits_none]
  case h_4 h => simp [h, decodeStrobe_ok_iff, extFits_none]
  case h_5 h => simp [h, decodeAdvance_ok_iff, extFits_cycles]
  case h_6 h => simp [h, decodeStrobe_ok_iff, extFits_none]
  case h_7 h => simp [h, decodeStart_ok_iff, extFits_none]
  case h_8 h => simp [h, decodeStrobe_ok_iff, extFits_none]
  case h_9 h => simp [h, decodeRender_ok_iff, extFits_rpw]
  case h_10 h => simp [h, decodeEnq_ok_iff, extFits_buffer]
  case h_11 =>
    have hop : ¬ c.op.toNat < 0xA := by grind
    simp [hop]

theorem decode_error_iff_not_legalCommand (c : Command) : (∃ why, decode c = .error why) ↔ ¬ LegalCommand c := by
  rw [← decode_ok_iff_legalCommand]
  cases decode c <;> simp

theorem decode_rpw (w : RpwWord) : decode ⟨0x8000, .rpw w⟩ = .ok (.render (decodeRpw w)) := by
  simp [decode, decodeRender, Command.op, Command.z]

/-! ## The refusal of a step -/

/-- Only the decoder answers `IllegalCommand`: the configuration and the operations have other reasons (R265). -/
theorem step_illegalCommand_iff {s : State} {c : Command} {rest : List Command} (hc : s.cmds = c :: rest)
    (why : DecodeError) : step s = .refused (.illegalCommand why) ↔ decode c = .error why := by
  cases hd : decode c with
  | error e => simp [step, hc, hd]
  | ok i =>
    refine iff_of_false (fun h => ?_) nofun
    cases hk : configOk s.cfg with
    | false => simp [step, hc, hd, hk] at h
    | true =>
      rw [step_cons hc hd hk] at h
      obtain ⟨t, he⟩ | he | he := exec_next_or_refused i { s with cmds := rest } <;> simp [he] at h

end Sys2Proof.Machine

/-! The statements of 30_encoding.md: the illegal commands and the render parameter word. -/

namespace Sys2Proof.Machine

/-- Settles O3: a step answers `IllegalCommand` only from the decoder, which accepts exactly the legal commands. -/
theorem stepRefusesExactlyIllegalCommands : Obligations.StepRefusesExactlyIllegalCommands := by
  intro s c rest hc
  simp only [step_illegalCommand_iff hc]
  exact decode_error_iff_not_legalCommand c

/-- Settles O5, with the operands that `decodeRpw` reads from the word. -/
theorem renderParameterWordFields : Obligations.RenderParameterWordFields := by
  intro w s
  refine ⟨decodeRpw w, decode_rpw w, decodeRpw_p8 w, decodeRpw_dm w, decodeRpw_rate w, decodeRpw_inf w, decodeRpw_amp w,
    decodeRpw_ff w, fun h => ?_⟩
  rw [exec_render, if_pos (show 63 < (decodeRpw w).p8.toNat from h)]

end Sys2Proof.Machine

/-! SUPPORT. The register bus: the two insertions into the inflection bit by bit, the commands of format W and R, the play
event of a write, and the result that an operation of the bus returns. -/

namespace Sys2Proof.Machine

/-! ## The inflection -/

@[simp] theorem insertInfMiddle_middle (v : BitVec 12) (d : Byte) : (insertInfMiddle v d).extractLsb' 3 8 = d := by
  apply BitVec.eq_of_toNat_eq
  rw [BitVec.extractLsb'_toNat, Nat.shiftRight_eq_div_pow, insertInfMiddle_toNat]; omega

@[simp] theorem insertInfMiddle_top (v : BitVec 12) (d : Byte) :
    (insertInfMiddle v d).getLsbD 11 = v.getLsbD 11 := by
  show (v.extractLsb' 11 1 ++ d ++ v.extractLsb' 0 3 : BitVec (1 + 8 + 3)).getLsbD 11 = _
  simp only [BitVec.getLsbD_append, BitVec.getLsbD_extractLsb']; simp

@[simp] theorem insertInfMiddle_low (v : BitVec 12) (d : Byte) :
    (insertInfMiddle v d).extractLsb' 0 3 = v.extractLsb' 0 3 := by
  apply BitVec.eq_of_toNat_eq
  simp only [BitVec.extractLsb'_toNat, Nat.shiftRight_eq_div_pow, insertInfMiddle_toNat]; omega

@[simp] theorem insertInfOuter_middle (v : BitVec 12) (d : Byte) :
    (insertInfOuter v d).extractLsb' 3 8 = v.extractLsb' 3 8 := by
  apply BitVec.eq_of_toNat_eq
  simp only [BitVec.extractLsb'_toNat, Nat.shiftRight_eq_div_pow, insertInfOuter_toNat]; omega

@[simp] theorem insertInfOuter_top (v : BitVec 12) (d : Byte) : (insertInfOuter v d).getLsbD 11 = d.getLsbD 3 := by
  show (d.extractLsb' 3 1 ++ v.extractLsb' 3 8 ++ d.extractLsb' 0 3 : BitVec (1 + 8 + 3)).getLsbD 11 = _
  simp only [BitVec.getLsbD_append, BitVec.getLsbD_extractLsb']; simp

@[simp] theorem insertInfOuter_low (v : BitVec 12) (d : Byte) :
    (insertInfOuter v d).extractLsb' 0 3 = d.extractLsb' 0 3 := by
  apply BitVec.eq_of_toNat_eq
  simp only [BitVec.extractLsb'_toNat, Nat.shiftRight_eq_div_pow, insertInfOuter_toNat]; omega

/-! ## The commands to invalid addresses -/

/-- Format W reads every address above 4 as invalid, with the address and the byte of the word. -/
theorem decodeWrite_wrInvalid {c : Command} (he : c.ext = .none) (ha : 5 ≤ c.addr.toNat) :
    decodeWrite c = .ok (.wrInvalid c.addr c.data) := by
  rw [decodeWrite, he]
  dsimp only
  split
  case h_6 => rfl
  all_goals omega

theorem decodeRead_rdInvalid {c : Command} (he : c.ext = .none) (hd : c.data = 0) (ha : 1 ≤ c.addr.toNat) :
    decodeRead c = .ok (.rdInvalid c.addr) := by
  have hne : c.addr ≠ 0 := fun h => by simp [h] at ha
  rw [decodeRead, if_neg (not_not.mpr hd), he]
  exact if_neg hne

theorem decode_wrInvalid {a : BitVec 3} (d : Byte) (ha : 5 ≤ a.toNat) :
    decode ⟨cmdWord 0x0 a d, .none⟩ = .ok (.wrInvalid a d) := by
  have h := decodeWrite_wrInvalid (c := ⟨cmdWord 0x0 a d, .none⟩) rfl (by rwa [addr_cmdWord])
  simpa [decode] using h

theorem decode_rdInvalid {a : BitVec 3} (ha : 1 ≤ a.toNat) :
    decode ⟨cmdWord 0x1 a 0, .none⟩ = .ok (.rdInvalid a) := by
  have h := decodeRead_rdInvalid (c := ⟨cmdWord 0x1 a 0, .none⟩) rfl (data_cmdWord ..) (by rwa [addr_cmdWord])
  simpa [decode] using h

/-! ## The play event of a write -/

theorem play_of_fits {s : State} (h : playTarget s.cfg s.chip < 2 ^ s.cfg.cycleW) :
    ∃ t, play s = .next t ∧ PlayedFrom s t :=
  ⟨playedState s, by rw [play_eq, if_neg (Nat.not_le.mpr h)], playedFrom_playedState s⟩

theorem play_of_overflow {s : State} (h : 2 ^ s.cfg.cycleW ≤ playTarget s.cfg s.chip) :
    play s = .refused .cycleOverflow := by
  rw [play_eq, if_pos h]

theorem play_out {s t : State} (h : play s = .next t) : t.out = .nothing := by
  rw [play_eq] at h
  split at h
  · cases h
  · cases h; rfl

theorem exec_wrDurphon_standby {s : State} (h : s.chip.ctl = true) (d : Byte) :
    exec (.wrDurphon d) s = .next { s with chip := storeDurPhon d s.chip, out := .nothing } := by
  rw [exec_wrDurphon, if_pos h]

theorem exec_wrDurphon_active {s : State} (h : s.chip.ctl = false) (d : Byte) :
    exec (.wrDurphon d) s = play { s with chip := storeDurPhon d s.chip } := by
  simp [exec, execWrDurphon, h]

theorem exec_wrCtlartamp_wakeUp {s : State} {d : Byte} (h : s.chip.ctl = true) (hd : d.getLsbD 7 = false) :
    exec (.wrCtlartamp d) s = play { s with chip := storeCtlArtAmp d s.chip } := by
  simp only [exec, execWrCtlartamp, fieldCtl, h, hd]; rfl

theorem exec_wrCtlartamp_noWakeUp {s : State} {d : Byte} (h : ¬ (s.chip.ctl = true ∧ d.getLsbD 7 = false)) :
    exec (.wrCtlartamp d) s = .next { s with chip := storeCtlArtAmp d s.chip, out := .nothing } := by
  rw [exec_wrCtlartamp, if_neg (by simpa using h)]

/-! ## The result of an operation of the bus -/

/-- What an operation of the register bus returns when it completes: it depends on the configuration and on `SPK` alone. -/
def busResult (cfg : Config) (spk : Bool) : Instr → Result
  | .rdStatus => .status (statusByte cfg spk)
  | .wrInvalid a _ => .fault (.invalidRegisterAddress a .write)
  | .rdInvalid a => .fault (.invalidRegisterAddress a .read)
  | _ => .nothing

theorem exec_wrDurphon_out {d : Byte} {s t : State} (h : exec (.wrDurphon d) s = .next t) : t.out = .nothing := by
  cases hc : s.chip.ctl with
  | true => rw [exec_wrDurphon_standby hc] at h; cases h; rfl
  | false => rw [exec_wrDurphon_active hc] at h; exact play_out h

theorem exec_wrCtlartamp_out {d : Byte} {s t : State} (h : exec (.wrCtlartamp d) s = .next t) : t.out = .nothing := by
  by_cases hw : s.chip.ctl = true ∧ d.getLsbD 7 = false
  · obtain ⟨hc, hd⟩ := hw
    rw [exec_wrCtlartamp_wakeUp hc hd] at h; exact play_out h
  · rw [exec_wrCtlartamp_noWakeUp hw] at h; cases h; rfl

theorem exec_out_eq_busResult {i : Instr} {s t : State}
    (hi : busOpOf i ≠ none ∨ (∃ a d, i = .wrInvalid a d) ∨ ∃ a, i = .rdInvalid a) (h : exec i s = .next t) :
    t.out = busResult s.cfg s.chip.spk i := by
  cases i with
  | wrDurphon d => exact exec_wrDurphon_out h
  | wrCtlartamp d => exact exec_wrCtlartamp_out h
  | wrInfl d => rw [exec_wrInfl] at h; cases h; rfl
  | wrRateinf d => rw [exec_wrRateinf] at h; cases h; rfl
  | wrFilter d => rw [exec_wrFilter] at h; cases h; rfl
  | wrInvalid a d => rw [exec_wrInvalid] at h; cases h; rfl
  | rdStatus => rw [exec_rdStatus] at h; cases h; rfl
  | rdInvalid a => rw [exec_rdInvalid] at h; cases h; rfl
  | reset | iack | advance _ | pull | start _ | stop | render _ | enq _ => simp [busOpOf] at hi

end Sys2Proof.Machine

/-! The statements of 40_register_bus.md: the writes, the status read, the invalid addresses and the results. -/

namespace Sys2Proof.Machine

/-- Settles O11: in ACTIVE the write is the play event of the chip with the two fields stored. -/
theorem writeDurphonStoresThenPlaysIfActive : Obligations.WriteDurphonStoresThenPlaysIfActive := by
  intro d s c
  refine ⟨fun hc => exec_wrDurphon_standby hc d, fun hc hfit => ?_, fun hc hover => ?_⟩
  · rw [exec_wrDurphon_active hc]; exact play_of_fits hfit
  · rw [exec_wrDurphon_active hc]; exact play_of_overflow hover

/-- Settles O12: a wake-up is the play event of the chip with the three fields stored. -/
theorem writeCtlartampPlaysOnWakeUpOnly : Obligations.WriteCtlartampPlaysOnWakeUpOnly := by
  intro d s c
  refine ⟨exec_wrCtlartamp_noWakeUp, fun hc hd hfit => ?_, fun hc hd hover => ?_⟩
  · rw [exec_wrCtlartamp_wakeUp hc hd]; exact play_of_fits hfit
  · rw [exec_wrCtlartamp_wakeUp hc hd]; exact play_of_overflow hover

/-- Settles O13, with the two insertions into `INF` read bit by bit. -/
theorem plainWritesReplaceOnlyTheirBits : Obligations.PlainWritesReplaceOnlyTheirBits := by
  intro d s
  refine ⟨⟨insertInfMiddle s.chip.inf d, exec_wrInfl d s, ?_⟩,
    ⟨fieldRate d, insertInfOuter s.chip.inf d, exec_wrRateinf d s, fieldRate_toNat d, ?_⟩, exec_wrFilter d s⟩
  · exact ⟨insertInfMiddle_middle _ _, insertInfMiddle_top _ _, insertInfMiddle_low _ _⟩
  · exact ⟨insertInfOuter_top _ _, insertInfOuter_low _ _, insertInfOuter_middle _ _⟩

/-- Settles O18: the result is `busResult`, which reads the configuration and `SPK` only. -/
theorem registerBusReturnsNoRegister : Obligations.RegisterBusReturnsNoRegister := by
  intro i s s' t t' hi hcfg hspk h h'
  rw [exec_out_eq_busResult hi h, exec_out_eq_busResult hi h', hcfg, hspk]

/-- Settles O16: the faults from the equations of `exec`, the decoding from the addresses that formats W and R leave over. -/
theorem invalidRegisterAddressFaults : Obligations.InvalidRegisterAddressFaults := by
  intro a d s
  exact ⟨exec_wrInvalid a d s, exec_rdInvalid a s, fun _ => rfl, decode_wrInvalid d, decode_rdInvalid⟩

/-- Settles O17: bit 7 alone is 0x80. -/
theorem statusReadReturnsSpeakingBit : Obligations.StatusReadReturnsSpeakingBit := by
  intro s hbit
  rw [exec_rdStatus, statusByte, hbit]; rfl

end Sys2Proof.Machine

/-! SUPPORT. The scheduler: an ADVANCE that fits and one that does not, and which operations are refused at overflow. -/

namespace Sys2Proof.Machine

/-! ## ADVANCE -/

theorem exec_advance_of_overflow {n : Nat} {s : State} (h : 2 ^ s.cfg.cycleW ≤ s.chip.cyc + n) :
    exec (.advance n) s = .refused .cycleOverflow := by
  rw [exec_advance, if_pos h]

theorem exec_advance_of_fits {n : Nat} {s : State} (h : s.chip.cyc + n < 2 ^ s.cfg.cycleW) :
    exec (.advance n) s = .next { s with chip := fireIfDue { s.chip with cyc := s.chip.cyc + n }, out := .nothing } := by
  rw [exec_advance, if_neg (Nat.not_le.mpr h)]

/-! ## The refusal at overflow -/

theorem exec_advance_cycleOverflow_iff (n : Nat) (s : State) :
    exec (.advance n) s = .refused .cycleOverflow ↔ 2 ^ s.cfg.cycleW ≤ s.chip.cyc + n := by
  refine ⟨fun h => Nat.le_of_not_lt fun hfit => ?_, exec_advance_of_overflow⟩
  rw [exec_advance_of_fits hfit] at h
  cases h

theorem play_cycleOverflow_iff (s : State) :
    play s = .refused .cycleOverflow ↔ 2 ^ s.cfg.cycleW ≤ playTarget s.cfg s.chip := by
  refine ⟨fun h => Nat.le_of_not_lt fun hfit => ?_, play_of_overflow⟩
  obtain ⟨t, ht, -⟩ := play_of_fits hfit
  rw [ht] at h
  cases h

/-- A write that plays stores its fields and is the play event of the chip they leave (R130). -/
theorem exec_of_plays {i : Instr} {s : State} (h : playsOn i s = true) :
    exec i s = play { s with chip := registersOf i s.chip } := by
  cases i with
  | wrDurphon d => exact exec_wrDurphon_active (by simpa [playsOn] using h) d
  | wrCtlartamp d =>
    obtain ⟨hctl, hbit⟩ : s.chip.ctl = true ∧ d.getLsbD 7 = false := by simpa [playsOn] using h
    exact exec_wrCtlartamp_wakeUp hctl hbit
  | wrInfl _ | wrRateinf _ | wrFilter _ | wrInvalid _ _ | rdStatus | rdInvalid _ | reset | iack | advance _ | pull
  | start _ | stop | render _ | enq _ => cases h

/-- Without a play event, only ADVANCE can overflow. -/
theorem exec_ne_cycleOverflow {i : Instr} {s : State} (hp : playsOn i s = false) (ha : ∀ n, i ≠ .advance n) :
    exec i s ≠ .refused .cycleOverflow := by
  cases i with
  | advance n => exact absurd rfl (ha n)
  | wrDurphon d => rw [exec_wrDurphon_standby (by simpa [playsOn] using hp)]; nofun
  | wrCtlartamp d => rw [exec_wrCtlartamp_noWakeUp (by simpa [playsOn] using hp)]; nofun
  | pull => rw [exec_pull]; split <;> nofun
  | start k => rw [exec_start]; split <;> (try split) <;> nofun
  | stop => rw [exec_stop]; split <;> nofun
  | render p => rw [exec_render]; split <;> nofun
  | enq b => rw [exec_enq]; nofun
  | wrInfl _ | wrRateinf _ | wrFilter _ | wrInvalid _ _ | rdStatus | rdInvalid _ | reset | iack => nofun

end Sys2Proof.Machine

/-! The statements of 41_scheduler.md: ADVANCE, the refusal at overflow, RESET and the power-on state. -/

namespace Sys2Proof.Machine

/-- Settles O24: whether the interrupt fires is decided on the counter after the addition. -/
theorem advanceFiresWhenTargetReached : Obligations.AdvanceFiresWhenTargetReached := by
  intro n s
  refine ⟨exec_advance_of_overflow, fun hfit => ⟨fun target hpend hdue => ?_, fun hnot => ?_⟩⟩
  · rw [exec_advance_of_fits hfit, fireIfDue_of_due (c := { s.chip with cyc := s.chip.cyc + n }) hpend hdue]; rfl
  · rw [exec_advance_of_fits hfit, fireIfDue_of_not_due hnot]

/-- Settles O26, by whether the operation is an ADVANCE, a play event or neither. -/
theorem cycleOverflowIsRefusedExactly : Obligations.CycleOverflowIsRefusedExactly := by
  intro i s
  by_cases ha : ∃ n, i = .advance n
  · obtain ⟨n, rfl⟩ := ha
    simp [exec_advance_cycleOverflow_iff, playsOn]
  · rw [not_exists] at ha
    cases hp : playsOn i s with
    | true => simp [exec_of_plays hp, play_cycleOverflow_iff, ha]
    | false => simp [exec_ne_cycleOverflow hp ha, ha]

/-- Settles O34, with the chip that `resetChip` leaves. -/
theorem resetRestoresDefaults : Obligations.ResetRestoresDefaults := by
  intro s
  rw [exec_reset, resetChip_eq]

/-- Settles O36: RESET finds every element at its default and the line deasserted. -/
theorem powerOnState : Obligations.PowerOnState := by
  refine ⟨fun cfg => ⟨?_, rfl, rfl, rfl, rfl, rfl⟩, Config.ex1, by decide, rfl⟩
  rw [exec_reset, resetChip_eq]; rfl

end Sys2Proof.Machine

/-! SUPPORT. The renderer's first four stages sample by sample, and the phoneme operand of a play event. -/

namespace Sys2Proof.Machine

/-! ## The lookup -/

/-- What R64 asks of the table of a well-formed configuration. -/
theorem table_inBounds_of_configOk {cfg : Config} (h : configOk cfg = true) :
    cfg.table.length = 62 ∧ ∀ e ∈ cfg.table, e.offset + e.length ≤ cfg.pcm.length := by
  have htable : tableOk cfg = true := by
    unfold configOk at h
    exact (Bool.and_eq_true_iff.mp h).2
  simpa [tableOk] using htable

theorem tableIndex_lt {p8 : BitVec 8} (h : p8.toNat ≤ 63) : tableIndex p8 < 62 := by
  unfold tableIndex
  split <;> omega

/-- Every phoneme up to 63 has its entry, and the entry lies inside `PCM`. -/
theorem exists_entry_of_configOk {cfg : Config} {p8 : BitVec 8} (hcfg : configOk cfg = true) (hp : p8.toNat ≤ 63) :
    ∃ e, cfg.table[tableIndex p8]? = some e ∧ e.offset + e.length ≤ cfg.pcm.length := by
  obtain ⟨hlength, hbounds⟩ := table_inBounds_of_configOk hcfg
  have hi : tableIndex p8 < cfg.table.length := by rw [hlength]; exact tableIndex_lt hp
  exact ⟨_, List.getElem?_eq_getElem hi, hbounds _ (List.getElem_mem hi)⟩

@[simp] theorem lookup_zero (cfg : Config) : lookup cfg 0 = [] := rfl

/-- A phoneme other than 0 reads the run of samples that its entry describes (R193). -/
theorem lookup_of_entry {cfg : Config} {p8 : BitVec 8} {e : TableEntry} (h0 : p8 ≠ 0)
    (he : cfg.table[tableIndex p8]? = some e) :
    lookup cfg p8 = (List.range e.length).map fun k => ((cfg.pcm.getD (e.offset + k) 0 : Int) : Rat) := by
  rw [lookup, if_neg h0, List.getD_eq_getElem?_getD, he, Option.getD_some]

theorem length_lookup_of_entry {cfg : Config} {p8 : BitVec 8} {e : TableEntry} (h0 : p8 ≠ 0)
    (he : cfg.table[tableIndex p8]? = some e) : (lookup cfg p8).length = e.length := by
  simp [lookup_of_entry h0 he]

/-- Where the entry lies inside `PCM`, the default value of the read is not seen. -/
theorem getElem?_lookup_of_entry {cfg : Config} {p8 : BitVec 8} {e : TableEntry} {k : Nat} (h0 : p8 ≠ 0)
    (he : cfg.table[tableIndex p8]? = some e) (hin : e.offset + e.length ≤ cfg.pcm.length) (hk : k < e.length) :
    ∃ v : Int, cfg.pcm[e.offset + k]? = some v ∧ (lookup cfg p8)[k]? = some (v : Rat) := by
  have hread : e.offset + k < cfg.pcm.length := by omega
  exact ⟨_, List.getElem?_eq_getElem hread, by simp [lookup_of_entry h0 he, hk, hread]⟩

/-! ## Amplitude and filter -/

theorem getElem?_ampScale (x : List Sample) (amp : BitVec 4) (i : Nat) :
    (ampScale x amp)[i]? = x[i]?.map fun v => v * (amp.toNat : Rat) / 15 := by
  simp [ampScale]

@[simp] theorem ampScale_fifteen (x : List Sample) : ampScale x 15 = x := by
  have hunit (v : Sample) : v * ((15 : Nat) : Rat) / 15 = v := mul_div_cancel_right₀ v (by norm_num)
  exact (congrArg x.map (funext hunit)).trans (List.map_id' x)

@[simp] theorem ampScale_zero (x : List Sample) : ampScale x 0 = zeros x.length := by
  simp [ampScale, zeros, List.map_const']

@[simp] theorem filterStage_ff (cfg : Config) (x : List Sample) : filterStage cfg x 0xFF = zeros x.length := rfl

theorem filterStage_identity {cfg : Config} (hfilt : cfg.filt = .identity) {ff : BitVec 8} (hff : ff ≠ 0xFF)
    (x : List Sample) : filterStage cfg x ff = x := by
  rw [filterStage, if_neg hff, hfilt, applyFilter]

/-! ## Averaging -/

/-- Sample `i` of the averaging is the mean of the `i`-th group (R198). -/
theorem getElem?_groupMeans {g i : Nat} {x : List Sample} (hi : i < x.length / g) :
    (groupMeans g x)[i]? = some (((List.range g).map fun j => x.getD (g * i + j) 0).sum / (g : Rat)) := by
  simp [groupMeans, hi]

theorem getElem?_groupMeans_two {i : Nat} {x : List Sample} (hi : i < x.length / 2) :
    (groupMeans 2 x)[i]? = some ((x.getD (2 * i) 0 + x.getD (2 * i + 1) 0) / 2) := by
  rw [getElem?_groupMeans hi]
  simp [List.range_succ]

theorem getElem?_groupMeans_four {i : Nat} {x : List Sample} (hi : i < x.length / 4) :
    (groupMeans 4 x)[i]? =
      some ((x.getD (4 * i) 0 + x.getD (4 * i + 1) 0 + x.getD (4 * i + 2) 0 + x.getD (4 * i + 3) 0) / 4) := by
  rw [getElem?_groupMeans hi]
  simp [List.range_succ, add_assoc]

/-! ## RENDER -/

/-- A 6-bit register names a legal phoneme (R22, R192). -/
theorem playParams_p8_le (c : Chip) : (playParams c).p8.toNat ≤ 63 := by
  show (c.ph.setWidth 8).toNat ≤ 63
  rw [BitVec.toNat_setWidth]
  omega

theorem exec_render_legal {p : RenderParams} (h : p.p8.toNat ≤ 63) (s : State) :
    exec (.render p) s = .next { s with out := .buffer (renderBuffer s.cfg p) } := by
  rw [exec_render, if_neg (Nat.not_lt.mpr h)]

theorem exec_render_faults {p : RenderParams} (h : 64 ≤ p.p8.toNat) (s : State) :
    exec (.render p) s = .next { s with out := .fault (.invalidPhonemeCode p.p8), faulted := true } := by
  rw [exec_render, if_pos (by omega)]

end Sys2Proof.Machine

/-! The statements of 42_renderer.md: RENDER and its first stages up to the averaging. -/

namespace Sys2Proof.Machine

/-- Settles O39, with the entry that a well-formed table has for each phoneme. -/
theorem lookupReadsItsEntryInBounds : Obligations.LookupReadsItsEntryInBounds := by
  intro cfg p8 hcfg hp
  refine ⟨fun h => h ▸ lookup_zero cfg, fun h0 => ?_⟩
  obtain ⟨e, he, hin⟩ := exists_entry_of_configOk hcfg hp
  exact ⟨e, he, hin, length_lookup_of_entry h0 he, fun k hk => getElem?_lookup_of_entry h0 he hin hk⟩

/-- Settles O42: modes 2 and 3 are the means of groups of two and of four. -/
theorem averagingByDurationMode : Obligations.AveragingByDurationMode := fun x =>
  ⟨rfl, rfl, length_groupMeans 2 x, length_groupMeans 4 x,
    fun _ hi => getElem?_groupMeans_two hi, fun _ hi => getElem?_groupMeans_four hi⟩

/-- Settles O38, by whether the phoneme operand passes the check of R192. -/
theorem renderReturnsTheBufferOnly : Obligations.RenderReturnsTheBufferOnly := fun _ s =>
  ⟨fun hp => exec_render_legal hp s, fun hp => exec_render_faults hp s, playParams_p8_le s.chip⟩

/-- Settles O40, the bounds of the index giving the sample that is scaled. -/
theorem amplitudeScalesLinearly : Obligations.AmplitudeScalesLinearly := fun x amp =>
  ⟨length_ampScale x amp, fun i hi => by rw [getElem?_ampScale]; simp [hi], ampScale_fifteen x, ampScale_zero x⟩

/-- Settles O41: only 0xFF does not come from `FILT`. -/
theorem filterSilencesOnlyAtFF : Obligations.FilterSilencesOnlyAtFF := fun cfg x ff =>
  ⟨filterStage_ff cfg x, length_filterStage cfg x ff, fun hfilt hff => filterStage_identity hfilt hff x⟩

end Sys2Proof.Machine

/-! SUPPORT. The audio queue: the cases of ENQ, the sink that the body of PULL leaves, which operations are refused as
PULL is, and the count of the samples still to deliver. -/

namespace Sys2Proof.Machine

/-! ## ENQ -/

theorem exec_enq_noop {s : State} (hm : s.sink.mode = .noop) (b : Buffer) :
    exec (.enq b) s = .next { s with out := .enq .ok, enqFull := false } := by
  have htakes : queueTakes s.cfg s.sink = false := by simp [queueTakes, hm]
  have hfull : queueFull s.cfg s.sink = false := by simp [queueFull, hm]
  simp [exec_enq, htakes, hfull]

theorem exec_enq_full {s : State} (hm : s.sink.mode ≠ .noop) (hl : s.sink.q.length = s.cfg.queueDepth) (b : Buffer) :
    exec (.enq b) s = .next { s with out := .enq .full, enqFull := true } := by
  simp [exec_enq, queueTakes, queueFull, hm, hl]

theorem exec_enq_room {s : State} (hm : s.sink.mode ≠ .noop) (hl : s.sink.q.length ≠ s.cfg.queueDepth) (b : Buffer) :
    exec (.enq b) s =
      .next { s with sink := { s.sink with q := s.sink.q ++ [b] }, out := .enq .ok, enqFull := false } := by
  simp [exec_enq, queueTakes, queueFull, hm, hl]

/-! ## PULL -/

theorem exec_pull_running {s : State} (hm : s.sink.mode = .running) :
    exec .pull s =
      .next { s with sink := (pullBody s.cfg.blockSize s.sink).2, out := .block (pullBody s.cfg.blockSize s.sink).1 } := by
  rw [exec_pull, if_pos hm]

theorem exec_pull_notRunning {s : State} (hm : s.sink.mode ≠ .running) : exec .pull s = .refused .pullNotRunning := by
  rw [exec_pull, if_neg hm]

/-- The body of PULL keeps the invariant of the sink (R247), whatever the block size. -/
theorem SinkInv.pullBody {cfg : Config} {k : Sink} (h : SinkInv cfg k) (blockSize : Nat) :
    SinkInv cfg (pullBody blockSize k).2 := by
  obtain ⟨-, -, -, -, hsuffix, hmode⟩ := pullBody_spec blockSize k h.headOk
  exact
    { bounded := hsuffix.length_le.trans h.bounded
      hpos_empty := pullLoop_nil h.hpos_empty
      hpos_head := fun _ _ => pullLoop_head h.hpos_head
      noop_empty := fun hm => List.suffix_nil.mp (h.noop_empty (hmode ▸ hm) ▸ hsuffix) }

/-- An operation other than PULL completes or is refused at overflow. -/
theorem exec_ne_pullNotRunning {i : Instr} (hi : i ≠ .pull) (s : State) : exec i s ≠ .refused .pullNotRunning := by
  cases i with
  | pull => exact absurd rfl hi
  | wrDurphon d => rw [exec_wrDurphon]; split <;> (try split) <;> nofun
  | wrCtlartamp d => rw [exec_wrCtlartamp]; split <;> (try split) <;> nofun
  | advance n => rw [exec_advance]; split <;> nofun
  | start k => rw [exec_start]; split <;> (try split) <;> nofun
  | stop => rw [exec_stop]; split <;> nofun
  | render p => rw [exec_render]; split <;> nofun
  | enq b => rw [exec_enq]; nofun
  | wrInfl _ | wrRateinf _ | wrFilter _ | wrInvalid _ _ | rdStatus | rdInvalid _ | reset | iack => nofun

/-! ## DRAIN -/

/-- A read position inside the head lies within the samples of the queue. -/
theorem HeadOk.hpos_le_sum {q : List Buffer} {hpos : Nat} (h : HeadOk q hpos) :
    hpos ≤ (q.map fun b => b.pcm.length).sum := by
  cases q with
  | nil => exact Nat.le_of_eq h
  | cons b rest =>
    rw [List.map_cons, List.sum_cons]
    exact Nat.le_add_right_of_le h

theorem length_pendingSamples_add_hpos {k : Sink} (h : HeadOk k.q k.hpos) :
    (pendingSamples k).length + k.hpos = (k.q.map fun b => b.pcm.length).sum := by
  rw [pendingSamples_eq, length_samplesFrom, Nat.sub_add_cancel h.hpos_le_sum]

end Sys2Proof.Machine

/-! The statements of 43_audio_queue.md: ENQ, PULL, START, STOP and DRAIN. -/

namespace Sys2Proof.Machine

/-- Settles O50: what the body of PULL delivers, and that it keeps the invariant of the sink. -/
theorem pullDeliversTheNextBlock : Obligations.PullDeliversTheNextBlock := by
  intro s hm hinv
  obtain ⟨hsamples, hunderrun, hrest, -, hsuffix, hmode⟩ := pullBody_spec s.cfg.blockSize s.sink hinv.headOk
  exact ⟨_, _, exec_pull_running hm, hsamples, pullBody_length _ _ hinv.headOk, hunderrun, hrest, hsuffix,
    hmode.trans hm, hinv.pullBody _⟩

/-- Settles O52, by whether the operation is PULL and, if so, by the mode. -/
theorem pullIsRefusedUnlessRunning : Obligations.PullIsRefusedUnlessRunning := by
  intro i s
  by_cases hi : i = .pull
  · subst hi
    by_cases hm : s.sink.mode = .running
    · simp [exec_pull_running hm, hm]
    · simp [exec_pull_notRunning hm, hm]
  · simp [exec_ne_pullNotRunning hi, hi]

/-- Settles O55: DRAIN has as much fuel as there are samples still to deliver. -/
theorem drainPlaysOutTheQueue : Obligations.DrainPlaysOutTheQueue := by
  intro cfg k hb hinv
  exact ⟨length_pendingSamples_add_hpos hinv.headOk,
    drainLoop_spec hb (remaining k) k hinv.headOk (remaining_eq k).ge⟩

/-- Settles O49, by the mode and by whether the queue is at its depth. -/
theorem enqueueAppendsOrAnswersFull : Obligations.EnqueueAppendsOrAnswersFull := fun b _ =>
  ⟨fun hm => exec_enq_noop hm b, fun hm hl => exec_enq_full hm hl b, fun hm hl => exec_enq_room hm hl b, rfl, rfl⟩

/-- Settles O53, by the mode and the bit of the device. -/
theorem startOpensOrDegrades : Obligations.StartOpensOrDegrades := by
  intro k s
  rw [exec_start]
  refine ⟨fun hm => if_pos hm, fun hm hk => ?_, fun hm hk => ?_⟩
  · rw [if_neg (not_not.mpr hm), if_pos hk]
  · rw [if_neg (not_not.mpr hm), hk, if_neg Bool.false_ne_true]

/-- Settles O54: outside STOPPED the policy and the mode decide only which blocks are returned. -/
theorem stopEmptiesTheQueue : Obligations.StopEmptiesTheQueue := by
  intro s
  rw [exec_stop]
  refine ⟨fun hm => if_pos hm, fun hm => ?_, fun hm hp => ?_, fun hm hp => ⟨_, ?_, rfl⟩⟩
  · simp [hm]
  · simp [hm, hp]
  · simp [hm, hp]

end Sys2Proof.Machine

/-! SUPPORT. The faults: which operation ends in which fault, and that no other operation ends in one. -/

namespace Sys2Proof.Machine

/-- The fault that an operation ends in, by its operands alone (60_exceptions.md R261). -/
def faultOf : Instr → Option Fault
  | .wrInvalid a _ => some (.invalidRegisterAddress a .write)
  | .rdInvalid a => some (.invalidRegisterAddress a .read)
  | .render p => if 63 < p.p8.toNat then some (.invalidPhonemeCode p.p8) else none
  | _ => none

theorem faultOf_eq_some_iff (i : Instr) (f : Fault) :
    faultOf i = some f ↔
      (∃ a d, i = .wrInvalid a d ∧ f = .invalidRegisterAddress a .write)
      ∨ (∃ a, i = .rdInvalid a ∧ f = .invalidRegisterAddress a .read)
      ∨ (∃ p, i = .render p ∧ 63 < p.p8.toNat ∧ f = .invalidPhonemeCode p.p8) := by
  cases i with
  | wrInvalid _ _ | rdInvalid _ | render _ => simp [faultOf, eq_comm]
  | wrDurphon _ | wrInfl _ | wrRateinf _ | wrCtlartamp _ | wrFilter _ | rdStatus | reset | iack | advance _ | pull
  | start _ | stop | enq _ => simp [faultOf]

/-- An operation that faults leaves every element as it was (R262). -/
theorem exec_of_faultOf {i : Instr} {f : Fault} (hf : faultOf i = some f) (s : State) :
    exec i s = .next { s with out := .fault f, faulted := true } := by
  obtain ⟨a, d, rfl, rfl⟩ | ⟨a, rfl, rfl⟩ | ⟨p, rfl, hp, rfl⟩ := (faultOf_eq_some_iff i f).mp hf
  · exact exec_wrInvalid a d s
  · exact exec_rdInvalid a s
  · exact exec_render_faults hp s

/-- Every other operation that completes returns a result of its own. -/
theorem exec_out_ne_fault {i : Instr} {s t : State} (hf : faultOf i = none) (h : exec i s = .next t) (f : Fault) :
    t.out ≠ .fault f := by
  cases i with
  | wrInvalid a d => cases hf
  | rdInvalid a => cases hf
  | render p =>
    have hp : p.p8.toNat ≤ 63 := by simpa [faultOf] using hf
    rw [exec_render_legal hp] at h; cases h; nofun
  | wrDurphon d => rw [exec_wrDurphon_out h]; nofun
  | wrCtlartamp d => rw [exec_wrCtlartamp_out h]; nofun
  | advance n => rw [exec_advance] at h; split at h <;> cases h; nofun
  | pull => rw [exec_pull] at h; split at h <;> cases h; nofun
  | start k => rw [exec_start] at h; split at h <;> (try split at h) <;> cases h <;> nofun
  | stop => rw [exec_stop] at h; split at h <;> cases h <;> nofun
  | enq b => rw [exec_enq] at h; cases h; nofun
  | wrInfl _ | wrRateinf _ | wrFilter _ | rdStatus | reset | iack => cases h; nofun

/-- An operation that completes ends in a fault exactly if `faultOf` names that fault. -/
theorem exec_out_eq_fault_iff {i : Instr} {s t : State} (h : exec i s = .next t) (f : Fault) :
    t.out = .fault f ↔ faultOf i = some f := by
  refine ⟨fun hout => ?_, fun hf => ?_⟩
  · cases hg : faultOf i with
    | none => exact absurd hout (exec_out_ne_fault hg h f)
    | some g => rw [exec_of_faultOf hg] at h; cases h; cases hout; rfl
  · rw [exec_of_faultOf hf] at h; cases h; rfl

end Sys2Proof.Machine

/-! The statements of 60_exceptions.md: which operations complete, and the complete list of faults. -/

namespace Sys2Proof.Machine

/-- Settles O10: an operation completes or is refused, and the conditions exclude the two reasons of a refusal. -/
theorem operationsCompleteUnlessRefused : Obligations.OperationsCompleteUnlessRefused := by
  intro i s
  have hcases := exec_next_or_refused i s
  refine ⟨fun f hf => by simp [hf] at hcases, fun hadvance hplay hpull => ?_⟩
  obtain ⟨t, h⟩ | hover | hnotRunning := hcases
  · exact ⟨t, h, exec_cfg_cmds h⟩
  · obtain ⟨n, hi, hn⟩ | ⟨hp, ht⟩ := (cycleOverflowIsRefusedExactly i s).mp hover
    · exact absurd (hadvance n hi) (Nat.not_lt.mpr hn)
    · exact absurd (hplay hp) (Nat.not_lt.mpr ht)
  · obtain ⟨hi, hm⟩ := (pullIsRefusedUnlessRunning i s).mp hnotRunning
    exact absurd (hpull hi) hm

/-- Settles O37: the operations that fault are those of `faultOf`. -/
theorem faultListIsComplete : Obligations.FaultListIsComplete := by
  intro i s t h
  refine ⟨fun f hout => ?_, fun hi => ?_⟩
  · have hf := (exec_out_eq_fault_iff h f).mp hout
    refine ⟨?_, ?_⟩
    · rw [exec_of_faultOf hf] at h; cases h; rfl
    · obtain ⟨a, d, hi, rfl⟩ | ⟨a, hi, rfl⟩ | ⟨p, hi, hp, rfl⟩ := (faultOf_eq_some_iff i f).mp hf
      · exact .inl ⟨a, d, hi, rfl, rfl⟩
      · exact .inr (.inl ⟨a, hi, rfl, rfl⟩)
      · exact .inr (.inr ⟨p, hi, hp, rfl, rfl⟩)
  · have hraises (f : Fault) (hf : faultOf i = some f) : ∃ f, t.out = .fault f :=
      ⟨f, (exec_out_eq_fault_iff h f).mpr hf⟩
    obtain ⟨a, d, rfl⟩ | ⟨a, rfl⟩ | ⟨p, rfl, hp⟩ := hi
    · exact hraises _ rfl
    · exact hraises _ rfl
    · exact hraises _ (if_pos hp)

end Sys2Proof.Machine

/-! SUPPORT. The chip side of an operation as a function of the configuration and of the chip alone, and the chip after a
run as that function folded over the operations (20_memory.md R82, 70_reset_and_hazards.md R321). -/

namespace Sys2Proof.Machine

/-- What a play event leaves of chip `c` where the queue has room: the one trace of the sink, the DROP event, is missing
(41_scheduler.md R166). -/
def playedChip (cfg : Config) (c : Chip) : Chip :=
  scheduleChip (durationMs c.rate c.dm) (durationCycles cfg (durationMs c.rate c.dm)) .ok c

/-- What an operation that completes makes of the chip, DROP events left out. -/
def chipAfter (cfg : Config) (c : Chip) : Instr → Chip
  | .wrDurphon d => if c.ctl then storeDurPhon d c else playedChip cfg (storeDurPhon d c)
  | .wrInfl d => storeInfl d c
  | .wrRateinf d => storeRateInf d c
  | .wrCtlartamp d =>
    if c.ctl = true ∧ d.getLsbD 7 = false then playedChip cfg (storeCtlArtAmp d c) else storeCtlArtAmp d c
  | .wrFilter d => storeFilter d c
  | .reset => resetChip c
  | .iack => deassertIrq c
  | .advance n => fireIfDue { c with cyc := c.cyc + n }
  | .wrInvalid _ _ | .rdStatus | .rdInvalid _ | .pull | .start _ | .stop | .render _ | .enq _ => c

/-! ## The view of the chip -/

/-- Firing reads the target and the counter and appends an event other than DROP. -/
theorem chipView_fireIfDue (c : Chip) : chipView (fireIfDue c) = fireIfDue (chipView c) := by
  obtain ⟨target, hp, hd, h⟩ | ⟨hn, h⟩ := fireIfDue_cases c
  · rw [h, fireIfDue_of_due (c := chipView c) hp hd]
    simp [chipView, fireIrq, assertIrq, emit]
  · rw [h, fireIfDue_of_not_due (c := chipView c) hn]

theorem chipView_deassertIrq (c : Chip) : chipView (deassertIrq c) = deassertIrq (chipView c) := by
  cases h : c.irq <;> simp [deassertIrq_eq, chipView, h]

theorem chipView_resetChip (c : Chip) : chipView (resetChip c) = resetChip (chipView c) :=
  chipView_deassertIrq _

/-- The sink decides only whether a play event appends DROP, which the view leaves out. -/
theorem chipView_playedState (s : State) : chipView (playedState s).chip = playedChip s.cfg (chipView s.chip) := by
  have htarget : s.chip.cyc + durationCycles s.cfg (durationMs s.chip.rate s.chip.dm) = playTarget s.cfg s.chip := rfl
  cases hirq : s.chip.irq <;> cases hfull : queueFull s.cfg s.sink <;>
    simp [playedState, playedChip, scheduleChip_eq, chipView, hirq, hfull, htarget]

theorem play_chipView {s t : State} (h : play s = .next t) : chipView t.chip = playedChip s.cfg (chipView s.chip) := by
  rw [play_eq] at h
  split at h <;> cases h
  exact chipView_playedState s

/-! ## An operation and a run -/

/-- Every operation that completes acts on the view as `chipAfter` says, whatever the sink holds. -/
theorem exec_chipView {i : Instr} {s t : State} (h : exec i s = .next t) :
    chipView t.chip = chipAfter s.cfg (chipView s.chip) i := by
  cases i with
  | wrDurphon d =>
    cases hc : s.chip.ctl with
    | true => rw [exec_wrDurphon_standby hc] at h; cases h; exact (if_pos hc).symm
    | false =>
      rw [exec_wrDurphon_active hc] at h
      exact (play_chipView h).trans (if_neg (ne_true_of_eq_false hc)).symm
  | wrCtlartamp d =>
    by_cases hw : s.chip.ctl = true ∧ d.getLsbD 7 = false
    · obtain ⟨hc, hd⟩ := hw
      rw [exec_wrCtlartamp_wakeUp hc hd] at h
      exact (play_chipView h).trans (if_pos (And.intro hc hd)).symm
    · rw [exec_wrCtlartamp_noWakeUp hw] at h; cases h; exact (if_neg hw).symm
  | advance n => rw [exec_advance] at h; split at h <;> cases h; exact chipView_fireIfDue _
  | reset => cases h; exact chipView_resetChip _
  | iack => cases h; exact chipView_deassertIrq _
  | wrInfl _ | wrRateinf _ | wrFilter _ | wrInvalid _ _ | rdStatus | rdInvalid _ => cases h; rfl
  | pull => rw [exec_pull] at h; split at h <;> cases h; rfl
  | start k => rw [exec_start] at h; split at h <;> (try split at h) <;> cases h <;> rfl
  | stop => rw [exec_stop] at h; split at h <;> cases h <;> rfl
  | render p => rw [exec_render] at h; split at h <;> cases h <;> rfl
  | enq b => rw [exec_enq] at h; cases h; rfl

/-- A run that completes acts on the view as `chipAfter` folded over its operations. -/
theorem runOps_chipView {is : List Instr} {s t : State} (h : runOps is s = .next t) :
    chipView t.chip = is.foldl (chipAfter s.cfg) (chipView s.chip) := by
  induction is generalizing s with
  | nil => cases h; rfl
  | cons i is ih =>
    rw [runOps] at h
    split at h
    case h_1 u hu =>
      obtain ⟨hcfg, -⟩ := exec_cfg_cmds hu
      rw [ih h, hcfg, exec_chipView hu, List.foldl_cons]
    all_goals cases h

/-- The operation of the audio agent, PULL, adds nothing to the fold. -/
theorem foldl_chipAfter_hostOps (cfg : Config) (is : List Instr) (c : Chip) :
    (hostOps is).foldl (chipAfter cfg) c = is.foldl (chipAfter cfg) c := by
  rw [hostOps, List.foldl_filter]
  congr 1
  funext c i
  cases i <;> rfl

end Sys2Proof.Machine

/-! The statement of 70_reset_and_hazards.md: the chip does not depend on the interleaving. -/

namespace Sys2Proof.Machine

/-- Settles O60: the view after a run is determined by the configuration, the view before it and the host operations. -/
theorem chipIsTheSameInEveryInterleaving : Obligations.ChipIsTheSameInEveryInterleaving := by
  intro is js s s' t t' hops hcfg hview h h'
  calc chipView t.chip
      = (hostOps is).foldl (chipAfter s.cfg) (chipView s.chip) := by rw [runOps_chipView h, foldl_chipAfter_hostOps]
    _ = (hostOps js).foldl (chipAfter s'.cfg) (chipView s'.chip) := by rw [hops, hcfg, hview]
    _ = chipView t'.chip := by rw [runOps_chipView h', foldl_chipAfter_hostOps]

end Sys2Proof.Machine

/-! SUPPORT. The formats of 30_encoding.md in both directions: what a format reads from a word that the encoder writes, and
which operation it can have read from a command. -/

namespace Sys2Proof.Machine

/-! ## From an operation to its command -/

theorem decodeStrobe_cmdWord (i : Instr) (op : BitVec 4) : decodeStrobe i ⟨cmdWord op 0#3 0#8, .none⟩ = .ok i := by
  simp [decodeStrobe]

theorem decodeAdvance_cmdWord (op : BitVec 4) (n : Nat) :
    decodeAdvance ⟨cmdWord op 0#3 0#8, .cycles n⟩ = .ok (.advance n) := by
  simp [decodeAdvance]

theorem decodeStart_cmdWord (op : BitVec 4) (k : Bool) :
    decodeStart ⟨cmdWord op 0#3 (if k then 1#8 else 0#8), .none⟩ = .ok (.start k) := by
  revert op k
  decide

theorem decodeRender_cmdWord (op : BitVec 4) (w : RpwWord) :
    decodeRender ⟨cmdWord op 0#3 0#8, .rpw w⟩ = .ok (.render (decodeRpw w)) := by
  simp [decodeRender]

theorem decodeEnq_cmdWord (op : BitVec 4) (b : Buffer) : decodeEnq ⟨cmdWord op 0#3 0#8, .buffer b⟩ = .ok (.enq b) := by
  simp [decodeEnq]

/-! ## From a command to its operation -/

/-- `i` is a well-formed operation and the fields of `c` are those of its encoding, whose operation code is `op`. -/
def EncodedBy (op : BitVec 4) (c : Command) (i : Instr) : Prop :=
  i.wf = true ∧ encode i = ⟨cmdWord op c.addr c.data, c.ext⟩

theorem eq_ofNat_of_toNat_eq {w k : Nat} {x : BitVec w} (h : x.toNat = k) : x = BitVec.ofNat w k := by
  rw [← h, BitVec.ofNat_toNat, BitVec.setWidth_eq]

theorem addr_data_of_low12_zero {c : Command} (h : c.cmd.extractLsb' 0 12 = 0) : c.addr = 0 ∧ c.data = 0 := by
  have hlow : c.cmd.toNat % 2 ^ 12 = 0 := by rw [← low12_toNat, h]; rfl
  refine ⟨BitVec.eq_of_toNat_eq ?_, BitVec.eq_of_toNat_eq ?_⟩
  · rw [addr_toNat]; simp only [BitVec.ofNat_eq_ofNat, BitVec.toNat_ofNat]; omega
  · rw [data_toNat]; simp only [BitVec.ofNat_eq_ofNat, BitVec.toNat_ofNat]; omega

theorem addr_data_of_startField_zero {c : Command} (h : c.cmd.extractLsb' 1 11 = 0) :
    c.addr = 0 ∧ c.data = if c.cmd.getLsbD 0 then 1 else 0 := by
  have hfield : c.cmd.toNat / 2 % 2 ^ 11 = 0 := by rw [← startField_toNat, h]; rfl
  have hbit : c.cmd.getLsbD 0 = decide (c.cmd.toNat % 2 = 1) := by simp [BitVec.getLsbD, Nat.testBit_zero]
  refine ⟨BitVec.eq_of_toNat_eq ?_, BitVec.eq_of_toNat_eq ?_⟩
  · rw [addr_toNat]; simp only [BitVec.ofNat_eq_ofNat, BitVec.toNat_ofNat]; omega
  · rw [data_toNat, hbit, apply_ite BitVec.toNat]
    simp only [decide_eq_true_eq, BitVec.ofNat_eq_ofNat, BitVec.toNat_ofNat]
    split <;> omega

theorem encodedBy_of_decodeWrite {c : Command} {i : Instr} (h : decodeWrite c = .ok i) : EncodedBy 0x0 c i := by
  have he : c.ext = .none := (decodeWrite_ok_iff c).mp ⟨i, h⟩
  rw [decodeWrite, he] at h
  dsimp only at h
  split at h <;> cases h
  case h_1 ha => exact ⟨rfl, by rw [eq_ofNat_of_toNat_eq ha, he]; rfl⟩
  case h_2 ha => exact ⟨rfl, by rw [eq_ofNat_of_toNat_eq ha, he]; rfl⟩
  case h_3 ha => exact ⟨rfl, by rw [eq_ofNat_of_toNat_eq ha, he]; rfl⟩
  case h_4 ha => exact ⟨rfl, by rw [eq_ofNat_of_toNat_eq ha, he]; rfl⟩
  case h_5 ha => exact ⟨rfl, by rw [eq_ofNat_of_toNat_eq ha, he]; rfl⟩
  case h_6 => exact ⟨decide_eq_true (by grind), by rw [he]; rfl⟩

theorem encodedBy_of_decodeRead {c : Command} {i : Instr} (h : decodeRead c = .ok i) : EncodedBy 0x1 c i := by
  obtain ⟨hd, he⟩ := (decodeRead_ok_iff c).mp ⟨i, h⟩
  rw [decodeRead, if_neg (not_not.mpr hd), he] at h
  dsimp only at h
  split at h <;> cases h
  case isTrue ha => exact ⟨rfl, by rw [ha, hd, he]; rfl⟩
  case isFalse ha =>
    refine ⟨decide_eq_true (Nat.pos_of_ne_zero fun h0 => ha (BitVec.eq_of_toNat_eq h0)), by rw [hd, he]; rfl⟩

theorem encodedBy_of_decodeStrobe {op : BitVec 4} {c : Command} {i j : Instr} (hwf : i.wf = true)
    (henc : encode i = ⟨cmdWord op 0 0, .none⟩) (h : decodeStrobe i c = .ok j) : EncodedBy op c j := by
  obtain ⟨hlow, he⟩ := (decodeStrobe_ok_iff i c).mp ⟨j, h⟩
  obtain ⟨ha, hd⟩ := addr_data_of_low12_zero hlow
  rw [decodeStrobe, if_neg (not_not.mpr hlow), he] at h
  cases h
  exact ⟨hwf, by rw [henc, ha, hd, he]⟩

theorem encodedBy_of_decodeAdvance {c : Command} {i : Instr} (h : decodeAdvance c = .ok i) : EncodedBy 0x4 c i := by
  obtain ⟨hlow, n, he⟩ := (decodeAdvance_ok_iff c).mp ⟨i, h⟩
  obtain ⟨ha, hd⟩ := addr_data_of_low12_zero hlow
  rw [decodeAdvance, if_neg (not_not.mpr hlow), he] at h
  cases h
  exact ⟨rfl, by rw [ha, hd, he]; rfl⟩

theorem encodedBy_of_decodeStart {c : Command} {i : Instr} (h : decodeStart c = .ok i) : EncodedBy 0x6 c i := by
  obtain ⟨hfield, he⟩ := (decodeStart_ok_iff c).mp ⟨i, h⟩
  obtain ⟨ha, hd⟩ := addr_data_of_startField_zero hfield
  rw [decodeStart, if_neg (not_not.mpr hfield), he] at h
  cases h
  exact ⟨rfl, by rw [ha, hd, he]; rfl⟩

theorem encodedBy_of_decodeRender {c : Command} {i : Instr} (h : decodeRender c = .ok i) : EncodedBy 0x8 c i := by
  obtain ⟨hlow, w, he⟩ := (decodeRender_ok_iff c).mp ⟨i, h⟩
  obtain ⟨ha, hd⟩ := addr_data_of_low12_zero hlow
  rw [decodeRender, if_neg (not_not.mpr hlow), he] at h
  cases h
  exact ⟨rfl, by rw [encode, encodeRpw_decodeRpw, ha, hd, he]⟩

theorem encodedBy_of_decodeEnq {c : Command} {i : Instr} (h : decodeEnq c = .ok i) : EncodedBy 0x9 c i := by
  obtain ⟨hlow, b, he⟩ := (decodeEnq_ok_iff c).mp ⟨i, h⟩
  obtain ⟨ha, hd⟩ := addr_data_of_low12_zero hlow
  rw [decodeEnq, if_neg (not_not.mpr hlow), he] at h
  cases h
  exact ⟨rfl, by rw [ha, hd, he]; rfl⟩

/-- The decoder reads an operation only from a command whose fields are those of the operation's encoding. -/
theorem encodedBy_of_decode {c : Command} {i : Instr} (h : decode c = .ok i) : c.z = 0 ∧ EncodedBy c.op c i := by
  rw [decode] at h
  split at h
  · cases h
  next hz =>
  refine ⟨not_not.mp hz, ?_⟩
  split at h
  case h_1 ho => rw [eq_ofNat_of_toNat_eq ho]; exact encodedBy_of_decodeWrite h
  case h_2 ho => rw [eq_ofNat_of_toNat_eq ho]; exact encodedBy_of_decodeRead h
  case h_3 ho => rw [eq_ofNat_of_toNat_eq ho]; exact encodedBy_of_decodeStrobe rfl rfl h
  case h_4 ho => rw [eq_ofNat_of_toNat_eq ho]; exact encodedBy_of_decodeStrobe rfl rfl h
  case h_5 ho => rw [eq_ofNat_of_toNat_eq ho]; exact encodedBy_of_decodeAdvance h
  case h_6 ho => rw [eq_ofNat_of_toNat_eq ho]; exact encodedBy_of_decodeStrobe rfl rfl h
  case h_7 ho => rw [eq_ofNat_of_toNat_eq ho]; exact encodedBy_of_decodeStart h
  case h_8 ho => rw [eq_ofNat_of_toNat_eq ho]; exact encodedBy_of_decodeStrobe rfl rfl h
  case h_9 ho => rw [eq_ofNat_of_toNat_eq ho]; exact encodedBy_of_decodeRender h
  case h_10 ho => rw [eq_ofNat_of_toNat_eq ho]; exact encodedBy_of_decodeEnq h
  case h_11 => cases h

/-! ## A step on a command -/

/-- Under an ill-formed configuration a command that decodes is refused (R7, U9). -/
theorem step_of_configOk_false {s : State} {c : Command} {rest : List Command} {i : Instr} (hc : s.cmds = c :: rest)
    (hd : decode c = .ok i) (hk : configOk s.cfg = false) : step s = .refused .badConfig := by
  simp [step, hc, hd, hk]

/-- What R6 asks of the parameters, apart from that of `SAMPLE_W`. -/
theorem constraints_of_configOk {cfg : Config} (h : configOk cfg = true) :
    1 ≤ cfg.clockHz ∧ 1 ≤ cfg.fs ∧ 1 ≤ cfg.queueDepth ∧ 1 ≤ cfg.blockSize ∧ cfg.table.length = 62
    ∧ (∀ e ∈ cfg.table, e.offset + e.length ≤ cfg.pcm.length)
    ∧ ∀ v ∈ cfg.pcm, -2 ^ (cfg.sampleW - 1) ≤ v ∧ v < 2 ^ (cfg.sampleW - 1) := by
  obtain ⟨hlength, hbounds⟩ := table_inBounds_of_configOk h
  simp only [configOk, pcmOk, Bool.and_eq_true, decide_eq_true_eq, List.all_eq_true, Int.le_sub_one_iff] at h
  obtain ⟨⟨⟨⟨⟨⟨hclock, hfs⟩, hdepth⟩, hblock⟩, -⟩, hpcm⟩, -⟩ := h
  exact ⟨hclock, hfs, hdepth, hblock, hlength, hbounds, hpcm⟩

/-- An operation that completes is followed by the acknowledge that the configuration asks for, and by nothing else. -/
theorem step_of_exec_next {s t : State} {c : Command} {rest : List Command} {i : Instr} (hc : s.cmds = c :: rest)
    (hd : decode c = .ok i) (hk : configOk s.cfg = true) (h : exec i { s with cmds := rest } = .next t) :
    step s = .next (afterOp i t) := by
  rw [step_cons hc hd hk, h]

theorem step_of_exec_refused {s : State} {c : Command} {rest : List Command} {i : Instr} {r : Refusal}
    (hc : s.cmds = c :: rest) (hd : decode c = .ok i) (hk : configOk s.cfg = true)
    (h : exec i { s with cmds := rest } = .refused r) : step s = .refused r := by
  rw [step_cons hc hd hk, h]

theorem afterOp_default {s : State} (h : s.cfg.acks = []) (i : Instr) : afterOp i s = s := by
  rw [afterOp_eq, acksAfter_default h, if_neg Bool.false_ne_true]

/-- Under the spec's default a step is the operation of its command (U3). -/
theorem step_of_acks_nil {s : State} {c : Command} {rest : List Command} {i : Instr} (hc : s.cmds = c :: rest)
    (hd : decode c = .ok i) (hk : configOk s.cfg = true) (ha : s.cfg.acks = []) :
    step s = exec i { s with cmds := rest } := by
  obtain ⟨t, h⟩ | h | h := exec_next_or_refused i { s with cmds := rest }
  · obtain ⟨hcfg, -⟩ := exec_cfg_cmds h
    rw [step_of_exec_next hc hd hk h, h, afterOp_default (by rw [hcfg]; exact ha)]
  · rw [step_of_exec_refused hc hd hk h, h]
  · rw [step_of_exec_refused hc hd hk h, h]

/-- The acknowledge changes nothing but the chip. -/
theorem afterOp_frame (i : Instr) (s : State) :
    (afterOp i s).cfg = s.cfg ∧ (afterOp i s).cmds = s.cmds ∧ (afterOp i s).sink = s.sink := by
  rw [afterOp_eq]
  split <;> exact ⟨rfl, rfl, rfl⟩

end Sys2Proof.Machine

/-! The statements of 30_encoding.md on the round trip, and of one step. -/

namespace Sys2Proof.Machine

/-- Settles O1, format by format. -/
theorem decodeOfEncodeIsIdentity : Obligations.DecodeOfEncodeIsIdentity := by
  intro i hi
  cases i with
  | wrDurphon d | wrInfl d | wrRateinf d | wrCtlartamp d | wrFilter d => simp [encode, decode, decodeWrite]
  | wrInvalid a d => exact decode_wrInvalid d (by simpa [Instr.wf] using hi)
  | rdStatus => rfl
  | rdInvalid a => exact decode_rdInvalid (by simpa [Instr.wf] using hi)
  | reset | iack | pull | stop => simp [encode, decode, decodeStrobe_cmdWord]
  | advance n => simp [encode, decode, decodeAdvance_cmdWord]
  | start k => simp [encode, decode, decodeStart_cmdWord]
  | render p => simp [encode, decode, decodeRender_cmdWord]
  | enq b => simp [encode, decode, decodeEnq_cmdWord]

/-- Settles O2: the fields of the command are those of the encoding, and its four fields are the whole command. -/
theorem encodeOfDecodeIsIdentity : Obligations.EncodeOfDecodeIsIdentity := by
  intro c i h
  obtain ⟨hz, hwf, henc⟩ := encodedBy_of_decode h
  exact ⟨hwf, by rw [henc, cmdWord_of_fields c hz]⟩

/-- Settles O4, each word by evaluation of the decoder. -/
theorem wordsDecodeToTheirOperations : Obligations.WordsDecodeToTheirOperations :=
  ⟨rfl, rfl, rfl, rfl, rfl, rfl, rfl, rfl, rfl, rfl, rfl, rfl, rfl, rfl, rfl, rfl⟩

/-- Settles O6, by the three clauses of `step` on a command that decodes. -/
theorem stepRunsDecodedOperation : Obligations.StepRunsDecodedOperation := by
  intro s c rest i hc hd hk
  refine ⟨fun t h => ?_, fun _ => step_of_exec_refused hc hd hk, step_of_acks_nil hc hd hk⟩
  obtain ⟨hcfg, -⟩ := exec_cfg_cmds h
  rw [step_of_exec_next hc hd hk h, afterOp_eq, hcfg]

/-- Settles O7: the core is idle. -/
theorem idleStepChangesNothing : Obligations.IdleStepChangesNothing := by
  intro s hc
  rw [step, hc]

/-- Settles O8: each of the cases denies one of the constraints that `configOk` checks. -/
theorem illFormedConfigurationIsRefused : Obligations.IllFormedConfigurationIsRefused := by
  intro s c rest hc hlegal hill
  obtain ⟨i, hd⟩ := (decode_ok_iff_legalCommand c).mpr hlegal
  refine step_of_configOk_false hc hd (Bool.eq_false_iff.mpr fun hk => ?_)
  obtain ⟨hclock, hfs, hdepth, hblock, hlength, hbounds, hpcm⟩ := constraints_of_configOk hk
  obtain h | h | h | h | h | ⟨e, he, h⟩ | ⟨v, hv, h⟩ := hill
  · omega
  · omega
  · omega
  · omega
  · exact h hlength
  · exact absurd (hbounds e he) (Nat.not_le.mpr h)
  · obtain ⟨hlow, hhigh⟩ := hpcm v hv
    omega

/-- Settles O9: an idle step has no command to take, and any other takes the first. -/
theorem stepKeepsConfiguration : Obligations.StepKeepsConfiguration := by
  intro s t h
  obtain ⟨hc, rfl⟩ | ⟨c, rest, i, u, hc, -, -, he, rfl⟩ := step_next_cases h
  · rw [hc]; exact ⟨rfl, rfl⟩
  · obtain ⟨hcfg, hcmds⟩ := exec_cfg_cmds he
    obtain ⟨hcfg', hcmds', -⟩ := afterOp_frame i u
    rw [hcfg', hcmds', hcfg, hcmds, hc]; exact ⟨rfl, rfl⟩

end Sys2Proof.Machine

/-! SUPPORT. What an operation does to the runtime state of the chip (10_state.md R30 to R33): one case per way in which it
can change, from which every statement about SPK, PEND, CYC, IRQ and LOG follows. -/

namespace Sys2Proof.Machine

/-- The two chips agree on the runtime state, the line and the log. -/
structure SameRuntime (c c' : Chip) : Prop where
  spk : c'.spk = c.spk
  pend : c'.pend = c.pend
  cyc : c'.cyc = c.cyc
  irq : c'.irq = c.irq
  log : c'.log = c.log

/-- How an operation `i` that completes takes `s` to `t`, seen from the runtime state of the chip. -/
inductive ChipStep (i : Instr) (s t : State) : Prop
  | plays (hp : playsOn i s = true) (hfit : playTarget s.cfg (registersOf i s.chip) < 2 ^ s.cfg.cycleW)
      (ht : t = playedState { s with chip := registersOf i s.chip })
  | fires (n target : Nat) (hi : i = .advance n) (hfit : s.chip.cyc + n < 2 ^ s.cfg.cycleW)
      (hpend : s.chip.pend = some target) (hdue : target ≤ s.chip.cyc + n)
      (hc : t.chip = fireIrq { s.chip with cyc := s.chip.cyc + n })
  | counts (n : Nat) (hi : i = .advance n) (hfit : s.chip.cyc + n < 2 ^ s.cfg.cycleW)
      (hnot : ∀ target, s.chip.pend = some target → s.chip.cyc + n < target)
      (hc : t.chip = { s.chip with cyc := s.chip.cyc + n })
  | resets (hi : i = .reset) (hc : t.chip = resetChip s.chip)
  | acknowledges (hi : i = .iack) (hc : t.chip = deassertIrq s.chip)
  | keeps (hp : playsOn i s = false) (ha : ∀ n, i ≠ .advance n) (hr : i ≠ .reset) (hk : i ≠ .iack)
      (hc : SameRuntime s.chip t.chip)

theorem exec_chipStep {i : Instr} {s t : State} (h : exec i s = .next t) : ChipStep i s t := by
  obtain ⟨hp, hfit, ht⟩ | ⟨-, n, hi, hfit, hc⟩ | ⟨-, hi, hc⟩ | ⟨-, hi, hc⟩ | ⟨hp, d, hw⟩ | ⟨hp, hc, ha, hr, hk⟩ :=
    exec_chip_cases h
  · exact .plays hp hfit ht
  · obtain ⟨target, hpend, hdue, hf⟩ | ⟨hnot, hf⟩ := fireIfDue_cases { s.chip with cyc := s.chip.cyc + n }
    · exact .fires n target hi hfit hpend hdue (hc.trans hf)
    · exact .counts n hi hfit hnot (hc.trans hf)
  · exact .resets hi hc
  · exact .acknowledges hi hc
  · obtain ⟨rfl, hc⟩ | ⟨rfl, hc⟩ | ⟨rfl, hc⟩ | ⟨rfl, hc⟩ | ⟨rfl, hc⟩ := hw <;>
      exact .keeps hp nofun nofun nofun (hc ▸ ⟨rfl, rfl, rfl, rfl, rfl⟩)
  · exact .keeps hp ha hr hk (hc ▸ ⟨rfl, rfl, rfl, rfl, rfl⟩)

end Sys2Proof.Machine

/-! SUPPORT. The invariants of the chip and of the sink (10_state.md R34, 43_audio_queue.md R247) under what an operation
does to each. -/

namespace Sys2Proof.Machine

/-! ## The chip -/

/-- The invariant speaks of the runtime state only. -/
theorem ChipInv.of_sameRuntime {cfg : Config} {c c' : Chip} (h : ChipInv cfg c) (hc : SameRuntime c c') :
    ChipInv cfg c' where
  spk_iff_pend := by rw [hc.spk, hc.pend]; exact h.spk_iff_pend
  pend_irq := by rw [hc.pend, hc.irq]; exact h.pend_irq
  cyc_width := by rw [hc.cyc]; exact h.cyc_width
  pend_width := by rw [hc.pend]; exact h.pend_width

theorem ChipInv.deassertIrq {cfg : Config} {c : Chip} (h : ChipInv cfg c) : ChipInv cfg (deassertIrq c) := by
  rw [deassertIrq_eq]
  exact { spk_iff_pend := h.spk_iff_pend, pend_irq := fun _ => rfl, cyc_width := h.cyc_width, pend_width := h.pend_width }

/-- An operation that completes keeps the invariant of the chip. -/
theorem ChipInv.of_chipStep {i : Instr} {s t : State} (h : ChipInv s.cfg s.chip) (hstep : ChipStep i s t) :
    ChipInv s.cfg t.chip := by
  cases hstep with
  | plays hp hfit ht =>
    obtain ⟨-, -, hcyc, -, -⟩ := registersOf_runtime i s.chip
    subst ht
    exact
      { spk_iff_pend := by simp [playedState]
        pend_irq := fun _ => rfl
        cyc_width := hcyc ▸ h.cyc_width
        pend_width := fun target ht => Option.some.inj ht ▸ hfit }
  | fires n target hi hfit hpend hdue hc =>
    rw [hc]
    exact { spk_iff_pend := by simp, pend_irq := by simp, cyc_width := hfit, pend_width := by simp }
  | counts n hi hfit hnot hc =>
    rw [hc]
    exact { spk_iff_pend := h.spk_iff_pend, pend_irq := h.pend_irq, cyc_width := hfit, pend_width := h.pend_width }
  | resets hi hc =>
    rw [hc, resetChip_eq]
    exact { spk_iff_pend := by simp, pend_irq := by simp, cyc_width := h.cyc_width, pend_width := by simp }
  | acknowledges hi hc => rw [hc]; exact h.deassertIrq
  | keeps hp ha hr hk hc => exact h.of_sameRuntime hc

/-! ## The sink -/

/-- The invariant of a sink with an empty queue. -/
theorem sinkInv_empty (cfg : Config) (mode : SinkMode) : SinkInv cfg ⟨[], 0, mode⟩ where
  bounded := Nat.zero_le _
  hpos_empty := fun _ => rfl
  hpos_head := nofun
  noop_empty := fun _ => rfl

/-- A buffer that the queue takes finds room, and becomes the head of an empty queue only, whose read position is 0. -/
theorem SinkInv.append {cfg : Config} {k : Sink} (h : SinkInv cfg k) (b : Buffer) (ht : queueTakes cfg k = true) :
    SinkInv cfg { k with q := k.q ++ [b] } := by
  obtain ⟨hmode, hlen⟩ : k.mode ≠ .noop ∧ k.q.length ≠ cfg.queueDepth := by simpa [queueTakes] using ht
  have hbound := h.bounded
  refine
    { bounded := by rw [List.length_append, List.length_singleton]; omega
      hpos_empty := fun hq => absurd hq (by simp)
      hpos_head := fun a rest hq => ?_
      noop_empty := fun hm => absurd hm hmode }
  cases hk : k.q with
  | nil =>
    simp only [h.hpos_empty hk]
    exact ⟨Nat.zero_le _, fun hl => List.eq_nil_of_length_eq_zero hl.symm⟩
  | cons a' rest' =>
    simp only [hk, List.cons_append, List.cons.injEq] at hq
    obtain ⟨rfl, -⟩ := hq
    exact h.hpos_head _ rest' hk

theorem SinkInv.enqueued {cfg : Config} {k : Sink} (h : SinkInv cfg k) (b : Buffer) :
    SinkInv cfg { k with q := k.q ++ (if queueTakes cfg k then [b] else []) } := by
  cases ht : queueTakes cfg k with
  | true => exact h.append b ht
  | false => simpa using h

/-- An operation that completes keeps the invariant of the sink. -/
theorem SinkInv.of_exec {i : Instr} {s t : State} (h : SinkInv s.cfg s.sink) (he : exec i s = .next t) :
    SinkInv s.cfg t.sink := by
  obtain ⟨hk, -, -, -⟩ | ⟨b, hk, -, -, -⟩ | ⟨-, -, hk, -⟩ | ⟨-, -, -, hk⟩ | ⟨-, hk | hk⟩ := exec_sink_cases he <;> rw [hk]
  · exact h
  · exact h.enqueued b
  · exact h.pullBody _
  · exact { bounded := h.bounded, hpos_empty := h.hpos_empty, hpos_head := h.hpos_head, noop_empty := nofun }
  · exact sinkInv_empty _ _
  · exact sinkInv_empty _ _

/-! ## Both -/

theorem Inv.of_exec {i : Instr} {s t : State} (h : Inv s) (he : exec i s = .next t) : Inv t := by
  obtain ⟨hchip, hsink⟩ := h
  obtain ⟨hcfg, -⟩ := exec_cfg_cmds he
  unfold Inv
  rw [hcfg]
  exact ⟨hchip.of_chipStep (exec_chipStep he), hsink.of_exec he⟩

/-- The acknowledge that may follow an operation keeps the invariants. -/
theorem Inv.afterOp {s : State} (h : Inv s) (i : Instr) : Inv (afterOp i s) := by
  obtain ⟨hchip, hsink⟩ := h
  rw [afterOp_eq]
  split
  · exact ⟨hchip.deassertIrq, hsink⟩
  · exact ⟨hchip, hsink⟩

/-! ## What a run delivers -/

theorem samplesFrom_append {q : List Buffer} {hpos : Nat} (h : HeadOk q hpos) (b : Buffer) :
    samplesFrom (q ++ [b]) hpos = samplesFrom q hpos ++ b.pcm := by
  have hle : hpos ≤ (q.flatMap fun b => b.pcm).length := by rw [List.length_flatMap]; exact h.hpos_le_sum
  simp [samplesFrom, List.drop_append_of_le_length hle]

/-- What an enqueue adds to the samples still to deliver. -/
theorem pendingSamples_enqueued {k : Sink} (h : HeadOk k.q k.hpos) (b : Buffer) (takes : Bool) :
    pendingSamples { k with q := k.q ++ (if takes then [b] else []) } =
      pendingSamples k ++ (if takes then b.pcm else []) := by
  cases takes with
  | true => exact samplesFrom_append h b
  | false => simp

/-- Of a padded block, as many samples as there were to deliver are the samples without the padding. -/
theorem take_padded (x : List Sample) (n : Nat) :
    (x.take n ++ zeros (n - x.length)).take x.length = x.take n := by
  obtain hle | hle := Nat.le_total n x.length
  · rw [Nat.sub_eq_zero_of_le hle, zeros_zero, List.append_nil, List.take_take, Nat.min_eq_right hle]
  · rw [List.take_of_length_le hle, List.take_left]

theorem deliveredBy_of_ne_pull {i : Instr} (hi : i ≠ .pull) (s t : State) : deliveredBy i s t = [] := by
  cases i with
  | pull => exact absurd rfl hi
  | _ => rfl

/-- One operation moves samples from the queue to the block, or from a buffer to the queue, and loses none. -/
theorem exec_keepsSamples {i : Instr} {s t : State} (h : SinkInv s.cfg s.sink) (hd : discards i s = false)
    (he : exec i s = .next t) :
    deliveredBy i s t ++ pendingSamples t.sink = pendingSamples s.sink ++ acceptedBy i s := by
  obtain ⟨hk, ha, -, hi⟩ | ⟨b, hk, ha, -, hi⟩ | ⟨rfl, -, hk, hout⟩ | ⟨-, rfl, -, hk⟩ | ⟨hd', -⟩ := exec_sink_cases he
  · rw [deliveredBy_of_ne_pull hi, hk, ha, List.append_nil, List.nil_append]
  · rw [deliveredBy_of_ne_pull hi, hk, ha, pendingSamples_enqueued h.headOk, List.nil_append]
  · obtain ⟨hsamples, -, hrest, -, -, -⟩ := pullBody_spec s.cfg.blockSize s.sink h.headOk
    have hdel : deliveredBy .pull s t = (pendingSamples s.sink).take s.cfg.blockSize := by
      simp only [deliveredBy, hout, hsamples, take_padded]
    have hacc : acceptedBy .pull s = [] := by simp [acceptedBy]
    rw [hdel, hacc, hk, hrest, List.take_append_drop, List.append_nil]
  · rw [deliveredBy_of_ne_pull (i := .start true) nofun, hk]
    simp [acceptedBy, pendingSamples]
  · rw [hd] at hd'; cases hd'

/-- The first operation of a run in which nothing is discarded, and the rest of that run. -/
theorem fifoRun_cons {i : Instr} {is : List Instr} {s u : State} {d a : List Sample}
    (h : fifoRun (i :: is) s = some (d, a, u)) :
    ∃ t d' a', discards i s = false ∧ exec i s = .next t ∧ fifoRun is t = some (d', a', u)
      ∧ d = deliveredBy i s t ++ d' ∧ a = acceptedBy i s ++ a' := by
  rw [fifoRun] at h
  split at h
  · cases h
  next hd =>
  split at h
  next t he =>
    split at h
    next d' a' u' hr => cases h; exact ⟨t, d', a', Bool.eq_false_iff.mpr hd, he, hr, rfl, rfl⟩
    · cases h
  · cases h
  · cases h

/-- A run in which nothing is discarded delivers in order what it finds queued and what it accepts. -/
theorem fifoRun_keepsSamples {is : List Instr} {s u : State} {d a : List Sample} (h : SinkInv s.cfg s.sink)
    (hrun : fifoRun is s = some (d, a, u)) : d ++ pendingSamples u.sink = pendingSamples s.sink ++ a := by
  induction is generalizing s d a with
  | nil => cases hrun; simp
  | cons i is ih =>
    obtain ⟨t, d', a', hdisc, he, hrest, rfl, rfl⟩ := fifoRun_cons hrun
    obtain ⟨hcfg, -⟩ := exec_cfg_cmds he
    have hone := exec_keepsSamples h hdisc he
    have hmore := ih (by rw [hcfg]; exact h.of_exec he) hrest
    calc deliveredBy i s t ++ d' ++ pendingSamples u.sink
        = deliveredBy i s t ++ (pendingSamples t.sink ++ a') := by rw [List.append_assoc, hmore]
      _ = pendingSamples s.sink ++ (acceptedBy i s ++ a') := by rw [← List.append_assoc, hone, List.append_assoc]

end Sys2Proof.Machine

/-! The statements on invariants and runs (10_state.md R34, 43_audio_queue.md R247). -/

namespace Sys2Proof.Machine

/-- Settles O57: the operation keeps both invariants, and so does the acknowledge that may follow it. -/
theorem stepKeepsInvariant : Obligations.StepKeepsInvariant := by
  intro s t hinv h
  obtain ⟨-, rfl⟩ | ⟨c, rest, i, u, -, -, -, he, rfl⟩ := step_next_cases h
  · exact hinv
  · exact (Inv.of_exec (s := { s with cmds := rest }) hinv he).afterOp i

/-- Settles O58: nothing is pending, the counter is 0 and the queue is empty. -/
theorem powerOnHasInvariant : Obligations.PowerOnHasInvariant := fun cfg =>
  ⟨{ spk_iff_pend := by simp [Chip.powerOn], pend_irq := fun _ => rfl, cyc_width := Nat.two_pow_pos _, pend_width := nofun },
    sinkInv_empty cfg .stopped⟩

/-- Settles O59, by induction over the run. -/
theorem queueDeliversEverySampleOnceInOrder : Obligations.QueueDeliversEverySampleOnceInOrder :=
  fun _ _ _ _ _ => fifoRun_keepsSamples

end Sys2Proof.Machine

/-! SUPPORT. The register bus and the scheduler beside the runtime state: the inflection from its two writes, what a write
leaves of the sink, the power state, the articulation, the duration, and ADVANCE after ADVANCE. -/

namespace Sys2Proof.Machine

/-! ## The inflection (30_encoding.md R106) -/

/-- The inflection that the bytes last written to addresses 1 and 2 spell. -/
def assembledInf (d1 d2 : Byte) : BitVec 12 := d2.extractLsb' 3 1 ++ d1 ++ d2.extractLsb' 0 3

theorem assembledInf_toNat (d1 d2 : Byte) :
    (assembledInf d1 d2).toNat = d2.toNat / 8 % 2 * 2048 + d1.toNat * 8 + d2.toNat % 8 := by
  show (d2.extractLsb' 3 1 ++ d1 ++ d2.extractLsb' 0 3 : BitVec (1 + 8 + 3)).toNat = _
  simp only [toNat_append_add, BitVec.extractLsb'_toNat, Nat.shiftRight_eq_div_pow]; omega

theorem insertInfOuter_insertInfMiddle (v : BitVec 12) (d1 d2 : Byte) :
    insertInfOuter (insertInfMiddle v d1) d2 = assembledInf d1 d2 := by
  rw [insertInfOuter, insertInfMiddle_middle, assembledInf]

theorem insertInfMiddle_insertInfOuter (v : BitVec 12) (d1 d2 : Byte) :
    insertInfMiddle (insertInfOuter v d2) d1 = assembledInf d1 d2 := by
  apply BitVec.eq_of_toNat_eq
  rw [insertInfMiddle_toNat, insertInfOuter_toNat, assembledInf_toNat]; omega

/-- The bytes of SETINF spell the inflection and the rate, each cut to its width (R118). -/
theorem assembledInf_setinf (rate inf : Nat) :
    assembledInf (BitVec.ofNat 8 (inf / 8 % 256)) (BitVec.ofNat 8 (rate % 16 * 16 + inf / 2048 % 2 * 8 + inf % 8)) =
      BitVec.ofNat 12 inf := by
  apply BitVec.eq_of_toNat_eq
  rw [assembledInf_toNat]; simp only [BitVec.toNat_ofNat]; omega

theorem fieldRate_setinf (rate inf : Nat) :
    fieldRate (BitVec.ofNat 8 (rate % 16 * 16 + inf / 2048 % 2 * 8 + inf % 8)) = BitVec.ofNat 4 rate := by
  apply BitVec.eq_of_toNat_eq
  rw [fieldRate_toNat]; simp only [BitVec.toNat_ofNat]; omega

/-! ## Writes (40_register_bus.md R137, R141) -/

/-- A register write plays with the registers it has stored, or only stores. -/
theorem exec_write_cases {i : Instr} {d : Byte} {s t : State}
    (hi : i = .wrDurphon d ∨ i = .wrInfl d ∨ i = .wrRateinf d ∨ i = .wrCtlartamp d ∨ i = .wrFilter d)
    (h : exec i s = .next t) :
    (playsOn i s = true ∧ t = playedState { s with chip := registersOf i s.chip })
    ∨ (playsOn i s = false ∧ ∃ c, SameRuntime s.chip c ∧ t = { s with chip := c, out := .nothing }) := by
  cases hp : playsOn i s with
  | true =>
    rw [exec_of_plays hp, play_eq] at h
    split at h <;> cases h
    exact .inl ⟨rfl, rfl⟩
  | false =>
    refine .inr ⟨rfl, ?_⟩
    obtain rfl | rfl | rfl | rfl | rfl := hi
    · rw [exec_wrDurphon_standby (by simpa [playsOn] using hp)] at h
      cases h; exact ⟨storeDurPhon d s.chip, ⟨rfl, rfl, rfl, rfl, rfl⟩, rfl⟩
    · cases h; exact ⟨storeInfl d s.chip, ⟨rfl, rfl, rfl, rfl, rfl⟩, rfl⟩
    · cases h; exact ⟨storeRateInf d s.chip, ⟨rfl, rfl, rfl, rfl, rfl⟩, rfl⟩
    · rw [exec_wrCtlartamp_noWakeUp (by simpa [playsOn] using hp)] at h
      cases h; exact ⟨storeCtlArtAmp d s.chip, ⟨rfl, rfl, rfl, rfl, rfl⟩, rfl⟩
    · cases h; exact ⟨storeFilter d s.chip, ⟨rfl, rfl, rfl, rfl, rfl⟩, rfl⟩

/-! ## The power state (60_exceptions.md R281) -/

theorem fireIfDue_ctl (c : Chip) : (fireIfDue c).ctl = c.ctl := by
  obtain ⟨-, -, -, h⟩ | ⟨-, h⟩ := fireIfDue_cases c <;> rw [h]
  rfl

/-- Of the registers that a write stores, the power bit is that of address 3. -/
theorem registersOf_ctl (i : Instr) (c : Chip) :
    (registersOf i c).ctl = c.ctl ∨ ∃ d : Byte, i = .wrCtlartamp d ∧ (registersOf i c).ctl = d.getLsbD 7 := by
  cases i with
  | wrCtlartamp d => exact .inr ⟨d, rfl, rfl⟩
  | _ => exact .inl rfl

/-! ## The sink and the renderer (43_audio_queue.md R230, 42_renderer.md R210) -/

/-- The operations of the sink and of the renderer neither read nor write the chip. -/
theorem exec_withChip {i : Instr} {s t : State}
    (hi : i = .pull ∨ (∃ k, i = .start k) ∨ i = .stop ∨ (∃ b, i = .enq b) ∨ ∃ p, i = .render p)
    (h : exec i s = .next t) (c : Chip) : t.chip = s.chip ∧ exec i { s with chip := c } = .next { t with chip := c } := by
  obtain rfl | ⟨k, rfl⟩ | rfl | ⟨b, rfl⟩ | ⟨p, rfl⟩ := hi
  · rw [exec_pull] at h
    split at h <;> cases h
    next hm => exact ⟨rfl, exec_pull_running (s := { s with chip := c }) hm⟩
  · rw [exec_start] at h ⊢
    split at h
    next hm => cases h; exact ⟨rfl, if_pos hm⟩
    next hm =>
      split at h
      next hk => cases h; exact ⟨rfl, (if_neg hm).trans (if_pos hk)⟩
      next hk => cases h; exact ⟨rfl, (if_neg hm).trans (if_neg hk)⟩
  · rw [exec_stop] at h ⊢
    split at h
    next hm => cases h; exact ⟨rfl, if_pos hm⟩
    next hm => cases h; exact ⟨rfl, if_neg hm⟩
  · rw [exec_enq] at h
    cases h; exact ⟨rfl, exec_enq b _⟩
  · rw [exec_render] at h
    split at h
    next hp => cases h; exact ⟨rfl, exec_render_faults hp _⟩
    next hp => cases h; exact ⟨rfl, exec_render_legal (Nat.le_of_not_lt hp) _⟩

/-! ## The articulation (10_state.md R26) -/

/-- `s` with another value in `ART`. -/
def withArt (a : BitVec 3) (s : State) : State := { s with chip := { s.chip with art := a } }

@[simp] theorem withArt_withArt (a b : BitVec 3) (s : State) : withArt a (withArt b s) = withArt a s := rfl

theorem fireIfDue_art (a : BitVec 3) (c : Chip) : fireIfDue { c with art := a } = { fireIfDue c with art := a } := by
  obtain ⟨target, hpend, hdue, h⟩ | ⟨hnot, h⟩ := fireIfDue_cases c
  · rw [h, fireIfDue_of_due (c := { c with art := a }) hpend hdue]; rfl
  · rw [h, fireIfDue_of_not_due (c := { c with art := a }) hnot]

theorem play_withArt {s t : State} (h : play s = .next t) (a : BitVec 3) : play (withArt a s) = .next (withArt a t) := by
  rw [play_eq] at h ⊢
  split at h <;> cases h
  next hfit => exact if_neg hfit

/-- No operation reads `ART`: from a state with another value it does the same, `ART` itself being kept or written. -/
theorem exec_withArt {i : Instr} {s t : State} (h : exec i s = .next t) (a : BitVec 3) :
    ∃ b, exec i (withArt a s) = .next (withArt b t) := by
  cases i with
  | wrDurphon d =>
    cases hc : s.chip.ctl with
    | true => rw [exec_wrDurphon_standby hc] at h; cases h; exact ⟨a, exec_wrDurphon_standby (s := withArt a s) hc d⟩
    | false =>
      rw [exec_wrDurphon_active hc] at h
      exact ⟨a, (exec_wrDurphon_active (s := withArt a s) hc d).trans (play_withArt h a)⟩
  | wrCtlartamp d =>
    refine ⟨t.chip.art, ?_⟩
    by_cases hw : s.chip.ctl = true ∧ d.getLsbD 7 = false
    · obtain ⟨hc, hd⟩ := hw
      rw [exec_wrCtlartamp_wakeUp hc hd] at h
      rw [exec_wrCtlartamp_wakeUp (s := withArt a s) hc hd]; exact h
    · rw [exec_wrCtlartamp_noWakeUp hw] at h; cases h; exact exec_wrCtlartamp_noWakeUp (s := withArt a s) hw
  | advance n =>
    rw [exec_advance] at h
    split at h <;> cases h
    next hfit =>
    refine ⟨a, (exec_advance_of_fits (s := withArt a s) (Nat.lt_of_not_le hfit)).trans ?_⟩
    rw [withArt, fireIfDue_art a { s.chip with cyc := s.chip.cyc + n }]; rfl
  | reset => rw [exec_reset, resetChip_eq] at h; cases h; exact ⟨0, by rw [exec_reset, resetChip_eq]; rfl⟩
  | iack => rw [exec_iack, deassertIrq_eq] at h; cases h; exact ⟨a, by rw [exec_iack, deassertIrq_eq]; rfl⟩
  | pull | start _ | stop | render _ | enq _ =>
    obtain ⟨hchip, h'⟩ := exec_withChip (by simp) h { s.chip with art := a }
    exact ⟨a, h'.trans (by rw [withArt, hchip])⟩
  | wrInfl _ | wrRateinf _ | wrFilter _ | wrInvalid _ _ | rdStatus | rdInvalid _ => cases h; exact ⟨a, rfl⟩

/-! ## The duration (41_scheduler.md R160 to R163) -/

/-- The inner rounding of R160 never loses anything that counts. -/
theorem durationMs_eq (rate : BitVec 4) (dm : BitVec 2) :
    durationMs rate dm = 4 * (16 - rate.toNat) * (4 - dm.toNat) := by
  have hinner : (16 - rate.toNat) * 4096 / 1023 = 4 * (16 - rate.toNat) := by omega
  rw [durationMs, hinner]

theorem durationMs_bounds (rate : BitVec 4) (dm : BitVec 2) : 4 ≤ durationMs rate dm ∧ durationMs rate dm ≤ 256 := by
  have hr : 1 ≤ 16 - rate.toNat ∧ 16 - rate.toNat ≤ 16 := by omega
  have hd : 1 ≤ 4 - dm.toNat ∧ 4 - dm.toNat ≤ 4 := by omega
  rw [durationMs_eq]
  exact ⟨Nat.mul_le_mul (Nat.mul_le_mul_left 4 hr.1) hd.1, Nat.mul_le_mul (Nat.mul_le_mul_left 4 hr.2) hd.2⟩

theorem durationMs_lt_of_rate_lt {rate rate' : BitVec 4} (h : rate < rate') (dm : BitVec 2) :
    durationMs rate' dm < durationMs rate dm := by
  have hrate : 4 * (16 - rate'.toNat) < 4 * (16 - rate.toNat) := by have := BitVec.lt_def.mp h; omega
  rw [durationMs_eq, durationMs_eq]
  exact Nat.mul_lt_mul_of_pos_right hrate (by omega)

theorem durationMs_lt_of_dm_lt (rate : BitVec 4) {dm dm' : BitVec 2} (h : dm < dm') :
    durationMs rate dm' < durationMs rate dm := by
  have hdm : 4 - dm'.toNat < 4 - dm.toNat := by have := BitVec.lt_def.mp h; omega
  rw [durationMs_eq, durationMs_eq]
  exact Nat.mul_lt_mul_of_pos_left hdm (by omega)

theorem durationCycles_le (cfg : Config) {m n : Nat} (h : m ≤ n) : durationCycles cfg m ≤ durationCycles cfg n :=
  Nat.div_le_div_right (Nat.mul_le_mul_right _ h)

/-! ## ADVANCE (41_scheduler.md R172, R173) -/

theorem exec_advance_next {n : Nat} {s t : State} (h : exec (.advance n) s = .next t) :
    s.chip.cyc + n < 2 ^ s.cfg.cycleW
    ∧ t = { s with chip := fireIfDue { s.chip with cyc := s.chip.cyc + n }, out := .nothing } := by
  rw [exec_advance] at h
  split at h <;> cases h
  next hfit => exact ⟨Nat.lt_of_not_le hfit, rfl⟩

@[simp] theorem fireIfDue_cyc (c : Chip) : (fireIfDue c).cyc = c.cyc := by
  obtain ⟨-, -, -, h⟩ | ⟨-, h⟩ := fireIfDue_cases c <;> rw [h]
  rfl

/-- With nothing pending the interrupt does not fire. -/
theorem fireIfDue_of_pend_none {c : Chip} (h : c.pend = none) : fireIfDue c = c :=
  fireIfDue_of_not_due fun target ht => by rw [h] at ht; cases ht

/-- A target that the first part of an advance reaches is reached by the whole, and what is left then only counts. -/
theorem fireIfDue_fireIfDue (c : Chip) (m : Nat) :
    fireIfDue { fireIfDue c with cyc := c.cyc + m } = fireIfDue { c with cyc := c.cyc + m } := by
  obtain ⟨target, hpend, hdue, h⟩ | ⟨hnot, h⟩ := fireIfDue_cases c
  · rw [h, fireIfDue_of_due (c := { c with cyc := c.cyc + m }) hpend (Nat.le_add_right_of_le hdue)]
    exact fireIfDue_of_pend_none rfl
  · rw [h]

end Sys2Proof.Machine

/-! The statements of 10_state.md, 40_register_bus.md, 41_scheduler.md and 60_exceptions.md on what an operation changes. -/

namespace Sys2Proof.Machine

/-- Settles O14: each of the two insertions keeps the bits that the other one writes. -/
theorem inflectionIsAssembledFromTwoWrites : Obligations.InflectionIsAssembledFromTwoWrites := by
  intro d1 d2 s inf u
  refine ⟨assembledInf_toNat d1 d2, ⟨_, exec_wrInfl d1 s, ?_⟩, ⟨_, exec_wrRateinf d2 s, ?_⟩⟩
  · rw [exec_wrRateinf, storeRateInf, storeInfl, insertInfOuter_insertInfMiddle]; rfl
  · rw [exec_wrInfl, storeRateInf, storeInfl, insertInfMiddle_insertInfOuter]; rfl

/-- Settles O15: the two commands are those of the two writes of O14. -/
theorem setinfSetsInflectionAndRate : Obligations.SetinfSetsInflectionAndRate := by
  intro rate inf s hcmds hk hacks
  have hdecode : ∀ i : Instr, i.wf = true → decode (encode i) = .ok i := decodeOfEncodeIsIdentity
  refine ⟨_, (step_of_acks_nil hcmds (hdecode (.wrInfl _) rfl) hk hacks).trans (exec_wrInfl _ _), ?_⟩
  refine Eq.trans (step_of_acks_nil rfl (hdecode (.wrRateinf _) rfl) hk hacks) ?_
  rw [exec_wrRateinf, storeRateInf, storeInfl, insertInfOuter_insertInfMiddle, assembledInf_setinf, fieldRate_setinf]

/-- Settles O20: a write that plays leaves the registers and then the sink of a play event, any other only stores. -/
theorem registerWriteFrame : Obligations.RegisterWriteFrame := by
  intro i d s t hi h
  obtain ⟨hp, rfl⟩ | ⟨hp, c, hc, rfl⟩ := exec_write_cases hi h
  · obtain ⟨-, -, hcyc, -, -⟩ := registersOf_runtime i s.chip
    exact ⟨hcyc, nofun, List.prefix_append _ _, rfl, rfl, by simp [hp], rfl⟩
  · exact ⟨hc.cyc, hc.irq.symm.trans, List.prefix_rfl, rfl, rfl,
      fun _ => ⟨hc.spk, hc.pend, hc.irq, hc.log, rfl, rfl⟩, rfl⟩

/-- Settles O21: `ART` of the state after it is the only element that can differ. -/
theorem articulationHasNoEffect : Obligations.ArticulationHasNoEffect := by
  intro i s t a h
  obtain ⟨b, h'⟩ := exec_withArt h a
  exact ⟨withArt b t, h', withArt_withArt 0 b t⟩

/-- Settles O22, from the closed form of the duration. -/
theorem durationFallsAsRateOrModeRises : Obligations.DurationFallsAsRateOrModeRises := by
  intro cfg rate rate' dm dm'
  obtain ⟨hlow, hhigh⟩ := durationMs_bounds rate dm
  refine ⟨durationMs_eq rate dm, hlow, hhigh, fun hrate => ?_, fun hdm => ?_⟩
  · have hlt := durationMs_lt_of_rate_lt hrate dm
    exact ⟨hlt, durationCycles_le cfg hlt.le⟩
  · have hlt := durationMs_lt_of_dm_lt rate hdm
    exact ⟨hlt, durationCycles_le cfg hlt.le⟩

/-- Settles O25: both overflow together, and the interrupt fires in the first part, in the second or in neither. -/
theorem advanceSplits : Obligations.AdvanceSplits := by
  intro a b s t h
  obtain ⟨-, rfl⟩ := exec_advance_next h
  have hchip := fireIfDue_fireIfDue { s.chip with cyc := s.chip.cyc + a } b
  simp only [Nat.add_assoc] at hchip
  simp only [exec_advance, fireIfDue_cyc, Nat.add_assoc, hchip]

/-- Settles O27, by the level of the line. -/
theorem iackDeassertsTheLine : Obligations.IackDeassertsTheLine := by
  intro s
  rw [exec_iack]
  refine ⟨fun h => ?_, fun h => ?_⟩
  · rw [deassertIrq_eq, h]; rfl
  · rw [deassertIrq, if_neg (ne_true_of_eq_false h)]

/-- Settles O31, by which of the fields of the chip the operation writes. -/
theorem powerStateChanges : Obligations.PowerStateChanges := by
  intro i s t h
  obtain ⟨-, -, rfl⟩ | ⟨-, n, -, -, hc⟩ | ⟨-, hi, hc⟩ | ⟨-, -, hc⟩ | ⟨-, d, hw⟩ | ⟨-, hc, -, -, -⟩ := exec_chip_cases h
  · exact (registersOf_ctl i s.chip).imp_right .inl
  · exact .inl (by rw [hc, fireIfDue_ctl])
  · exact .inr (.inr ⟨hi, by rw [hc, resetChip_eq]⟩)
  · exact .inl (by rw [hc, deassertIrq_eq])
  · obtain ⟨-, hc⟩ | ⟨-, hc⟩ | ⟨-, hc⟩ | ⟨hi, hc⟩ | ⟨-, hc⟩ := hw
    · exact .inl (by rw [hc, storeDurPhon_ctl])
    · exact .inl (by rw [hc, storeInfl_ctl])
    · exact .inl (by rw [hc, storeRateInf_ctl])
    · exact .inr (.inl ⟨d, hi, by rw [hc, storeCtlArtAmp_ctl, fieldCtl]⟩)
    · exact .inl (by rw [hc, storeFilter_ctl])
  · exact .inl (by rw [hc])

/-- Settles O35: the second RESET finds every element at its default and the line deasserted. -/
theorem resetIsIdempotent : Obligations.ResetIsIdempotent := by
  intro s t h
  rw [exec_reset, resetChip_eq] at h
  cases h
  rw [exec_reset, resetChip_eq]
  simp

/-- Settles O56, operation by operation. -/
theorem sinkOperationsLeaveTheChip : Obligations.SinkOperationsLeaveTheChip :=
  fun _ _ _ c hi h => exec_withChip hi h c

end Sys2Proof.Machine

/-! SUPPORT. The events that an operation appends to the log, and the phase of the interrupt after each of the ways in which
the runtime state of the chip can change. -/

namespace Sys2Proof.Machine

/-! ## The ADVANCE that fires -/

theorem firesOn_of_due {i : Instr} {s : State} {n target : Nat} (hi : i = .advance n) (hpend : s.chip.pend = some target)
    (hdue : target ≤ s.chip.cyc + n) : firesOn i s = true := by
  subst hi
  exact (firesOn_advance n s).mpr ⟨target, hpend, hdue⟩

theorem firesOn_of_not_due {n : Nat} {s : State} (hnot : ∀ target, s.chip.pend = some target → s.chip.cyc + n < target) :
    firesOn (.advance n) s = false := by
  refine Bool.eq_false_iff.mpr fun h => ?_
  obtain ⟨target, hpend, hdue⟩ := (firesOn_advance n s).mp h
  exact absurd (hnot target hpend) (Nat.not_lt.mpr hdue)

theorem firesOn_of_ne_advance {i : Instr} (hi : ∀ n, i ≠ .advance n) (s : State) : firesOn i s = false := by
  cases i with
  | advance n => exact absurd rfl (hi n)
  | _ => rfl

/-! ## The log -/

/-- The events that a play event appends (41_scheduler.md R166). -/
def playEvents (s : State) : List Event :=
  (if s.chip.irq then [.irqDeassert] else [])
    ++ [.play s.chip.ph s.chip.dm (durationMs s.chip.rate s.chip.dm)]
    ++ (if queueFull s.cfg s.sink then [.drop] else [])

theorem playedState_log (s : State) : (playedState s).chip.log = s.chip.log ++ playEvents s := by
  simp [playedState, playEvents]

theorem playCount_append (es fs : List Event) : playCount (es ++ fs) = playCount es + playCount fs := by
  simp [playCount]

theorem playCount_playEvents (s : State) : playCount (playEvents s) = 1 := by
  rw [playEvents, playCount_append, playCount_append]
  cases s.chip.irq <;> cases queueFull s.cfg s.sink <;> rfl

/-- The deassertion, if the line was asserted, is the only change of the line in a play event. -/
theorem lineAfter_playEvents (s : State) : lineAfter s.chip.irq (playEvents s) = some false := by
  rw [playEvents]
  cases s.chip.irq <;> cases queueFull s.cfg s.sink <;> rfl

/-- The event of a deassertion, if there is one. -/
theorem lineAfter_deassert (level : Bool) : lineAfter level (if level then [.irqDeassert] else []) = some false := by
  cases level <;> rfl

theorem playCount_deassert (level : Bool) : playCount (if level then [.irqDeassert] else []) = 0 := by
  cases level <;> rfl

theorem deassertIrq_log (c : Chip) :
    (deassertIrq c).log = c.log ++ (if c.irq then [.irqDeassert] else []) := by rw [deassertIrq_eq]

theorem resetChip_log (c : Chip) : (resetChip c).log = c.log ++ (if c.irq then [.irqDeassert] else []) := by
  rw [resetChip_eq]

/-- The runtime state after a play event that completes. -/
theorem play_runtime {s t : State} (h : play s = .next t) :
    t.chip.pend = some (playTarget s.cfg s.chip) ∧ t.chip.cyc = s.chip.cyc ∧ t.chip.spk = true ∧ t.chip.irq = false := by
  rw [play_eq] at h
  split at h <;> cases h
  exact ⟨rfl, rfl, rfl, rfl⟩

/-! ## The phase of the interrupt (60_exceptions.md R269) -/

theorem irqPhase_of_sameRuntime {c c' : Chip} (h : SameRuntime c c') : irqPhase c' = irqPhase c := by
  rw [irqPhase, irqPhase, h.pend, h.spk, h.irq]

theorem irqPhase_eq_idle_iff (c : Chip) : irqPhase c = some .idle ↔ c.pend = none ∧ c.spk = false ∧ c.irq = false := by
  unfold irqPhase
  split <;> simp_all

theorem irqPhase_eq_scheduled_iff (c : Chip) :
    irqPhase c = some .scheduled ↔ (∃ target, c.pend = some target) ∧ c.spk = true ∧ c.irq = false := by
  unfold irqPhase
  split <;> simp_all

theorem irqPhase_eq_asserted_iff (c : Chip) :
    irqPhase c = some .asserted ↔ c.pend = none ∧ c.spk = false ∧ c.irq = true := by
  unfold irqPhase
  split <;> simp_all

/-- Only in phase SCHEDULED is a target pending. -/
theorem eq_scheduled_of_pend {c : Chip} {p : IrqPhase} {target : Nat} (h : irqPhase c = some p)
    (hpend : c.pend = some target) : p = .scheduled := by
  cases p with
  | scheduled => rfl
  | idle => obtain ⟨hnone, -⟩ := (irqPhase_eq_idle_iff c).mp h; rw [hpend] at hnone; cases hnone
  | asserted => obtain ⟨hnone, -⟩ := (irqPhase_eq_asserted_iff c).mp h; rw [hpend] at hnone; cases hnone

theorem irqPhase_playedState (s : State) : irqPhase (playedState s).chip = some .scheduled := rfl

theorem irqPhase_fireIrq (c : Chip) : irqPhase (fireIrq c) = some .asserted := rfl

theorem irqPhase_resetChip (c : Chip) : irqPhase (resetChip c) = some .idle := by rw [resetChip_eq]; rfl

/-- An acknowledge ends phase ASSERTED and no other. -/
theorem irqPhase_deassertIrq {c : Chip} {p : IrqPhase} (h : irqPhase c = some p) :
    irqPhase (deassertIrq c) = some (if p = .asserted then .idle else p) := by
  rw [deassertIrq_eq]
  cases p with
  | idle =>
    obtain ⟨hpend, hspk, -⟩ := (irqPhase_eq_idle_iff c).mp h
    exact (irqPhase_eq_idle_iff _).mpr ⟨hpend, hspk, rfl⟩
  | scheduled =>
    obtain ⟨hpend, hspk, -⟩ := (irqPhase_eq_scheduled_iff c).mp h
    exact (irqPhase_eq_scheduled_iff _).mpr ⟨hpend, hspk, rfl⟩
  | asserted =>
    obtain ⟨hpend, hspk, -⟩ := (irqPhase_eq_asserted_iff c).mp h
    exact (irqPhase_eq_idle_iff _).mpr ⟨hpend, hspk, rfl⟩

theorem nextPhase_of_plays {i : Instr} {s : State} (h : playsOn i s = true) (p : IrqPhase) :
    nextPhase i s p = .scheduled := if_pos h

theorem nextPhase_reset (s : State) (p : IrqPhase) : nextPhase .reset s p = .idle := by cases p <;> rfl

theorem nextPhase_iack (s : State) (p : IrqPhase) : nextPhase .iack s p = if p = .asserted then .idle else p := by
  cases p <;> rfl

theorem nextPhase_fires {n : Nat} {s : State} (h : firesOn (.advance n) s = true) :
    nextPhase (.advance n) s .scheduled = .asserted := by simp [nextPhase, playsOn, h]

/-- Nothing else moves the interrupt. -/
theorem nextPhase_stays {i : Instr} {s : State} (hp : playsOn i s = false) (hf : firesOn i s = false) (hr : i ≠ .reset)
    (hk : i ≠ .iack) (p : IrqPhase) : nextPhase i s p = p := by
  cases p <;> simp [nextPhase, hp, hf, hr, hk]

end Sys2Proof.Machine

/-! The statements on the runtime state of the chip: one case per way in which it can change. -/

namespace Sys2Proof.Machine

/-- Settles O19: only a play event appends a PLAY, and it appends one. -/
theorem playEventsAreTriggeredExactlyByTheTable : Obligations.PlayEventsAreTriggeredExactlyByTheTable := by
  intro i s t h
  cases exec_chipStep h with
  | plays hp hfit ht =>
    obtain ⟨-, -, -, -, hlog⟩ := registersOf_runtime i s.chip
    rw [ht, playedState_log, playCount_append, playCount_playEvents, if_pos hp, hlog]
  | fires n target hi hfit hpend hdue hc => subst hi; rw [hc, fireIrq_log, playCount_append]; rfl
  | counts n hi hfit hnot hc => subst hi; rw [hc]; rfl
  | resets hi hc => subst hi; rw [hc, resetChip_log, playCount_append, playCount_deassert]; rfl
  | acknowledges hi hc => subst hi; rw [hc, deassertIrq_log, playCount_append, playCount_deassert]; rfl
  | keeps hp ha hr hk hc => rw [hc.log, hp]; rfl

/-- Settles O23: the write is a play event, after which the first ADVANCE that reaches the new target fires and leaves
nothing pending for the second. -/
theorem retriggerOverwritesPendingInterrupt : Obligations.RetriggerOverwritesPendingInterrupt := by
  intro d n m old s t u v hctl hpend hold ht hu hv target
  rw [exec_wrDurphon_active hctl] at ht
  obtain ⟨hpend', hcyc, hspk, hirq⟩ : t.chip.pend = some target ∧ t.chip.cyc = s.chip.cyc ∧ t.chip.spk = true
      ∧ t.chip.irq = false := play_runtime ht
  obtain ⟨-, rfl⟩ := exec_advance_next hu
  obtain ⟨-, rfl⟩ := exec_advance_next hv
  refine ⟨hpend', hirq, fun hbelow => ?_, fun hdue => ?_⟩
  · have hnot : ∀ x, t.chip.pend = some x → t.chip.cyc + n < x := fun x hx => by
      rw [hcyc, ← Option.some.inj (hpend'.symm.trans hx)]; exact hbelow
    rw [fireIfDue_of_not_due (c := { t.chip with cyc := t.chip.cyc + n }) hnot]
    exact ⟨hirq, hspk, hpend', rfl⟩
  · rw [← hcyc] at hdue
    rw [fireIfDue_of_due (c := { t.chip with cyc := t.chip.cyc + n }) hpend' hdue]
    exact ⟨rfl, rfl, rfl, rfl, by rw [fireIfDue_of_pend_none rfl]⟩

/-- Settles O28: the line is written by the ADVANCE that fires, by IACK, by RESET and by a play event. -/
theorem interruptLineIsALevel : Obligations.InterruptLineIsALevel := by
  intro i s t h
  cases exec_chipStep h with
  | plays hp hfit ht => subst ht; exact ⟨nofun, fun _ _ => .inr (.inr hp)⟩
  | fires n target hi hfit hpend hdue hc =>
    rw [hc]; exact ⟨fun _ _ => firesOn_of_due hi hpend hdue, nofun⟩
  | counts n hi hfit hnot hc => rw [hc]; simp +contextual
  | resets hi hc => rw [hc, resetChip_eq]; exact ⟨nofun, fun _ _ => .inr (.inl hi)⟩
  | acknowledges hi hc => rw [hc, deassertIrq_eq]; exact ⟨nofun, fun _ _ => .inl hi⟩
  | keeps hp ha hr hk hc => rw [hc.irq]; simp +contextual

/-- Settles O29: the flag is set by a play event, and cleared by the ADVANCE that fires and by RESET. -/
theorem speakingFlagChanges : Obligations.SpeakingFlagChanges := by
  intro i s t h
  cases exec_chipStep h with
  | plays hp hfit ht => subst ht; exact ⟨fun _ => rfl, fun _ _ => hp, nofun⟩
  | fires n target hi hfit hpend hdue hc =>
    rw [hc]; exact ⟨by simp [hi, playsOn], nofun, fun _ _ => .inl (firesOn_of_due hi hpend hdue)⟩
  | counts n hi hfit hnot hc => rw [hc]; simp +contextual [hi, playsOn]
  | resets hi hc => rw [hc, resetChip_eq]; exact ⟨by simp [hi, playsOn], nofun, fun _ _ => .inr hi⟩
  | acknowledges hi hc => rw [hc, deassertIrq_eq]; simp +contextual [hi, playsOn]
  | keeps hp ha hr hk hc => rw [hc.spk]; simp +contextual [hp]

/-- Settles O30: the two ways of an ADVANCE add its operand, the others keep the counter. -/
theorem onlyAdvanceMovesTheCounter : Obligations.OnlyAdvanceMovesTheCounter := by
  intro i s t h
  cases exec_chipStep h with
  | plays hp hfit ht =>
    obtain ⟨-, -, hcyc, -, -⟩ := registersOf_runtime i s.chip
    subst ht
    exact .inl ⟨hcyc, fun n hi => by subst hi; cases hp⟩
  | fires n target hi hfit hpend hdue hc => exact .inr ⟨n, hi, by rw [hc]; rfl⟩
  | counts n hi hfit hnot hc => exact .inr ⟨n, hi, by rw [hc]⟩
  | resets hi hc => exact .inl ⟨by rw [hc, resetChip_eq], by simp [hi]⟩
  | acknowledges hi hc => exact .inl ⟨by rw [hc, deassertIrq_eq], by simp [hi]⟩
  | keeps hp ha hr hk hc => exact .inl ⟨hc.cyc, ha⟩

/-- Settles O32: the events of each way, starting from the old level of the line. That an ADVANCE which fires meets a
deasserted line is the invariant. -/
theorem logRecordsEveryChangeOfTheLine : Obligations.LogRecordsEveryChangeOfTheLine := by
  intro i s t hinv h
  cases exec_chipStep h with
  | plays hp hfit ht =>
    obtain ⟨-, -, -, hirq, hlog⟩ := registersOf_runtime i s.chip
    subst ht
    refine ⟨_, (playedState_log _).trans (by rw [hlog]), ?_⟩
    rw [← hirq]; exact lineAfter_playEvents { s with chip := registersOf i s.chip }
  | fires n target hi hfit hpend hdue hc =>
    have hirq : s.chip.irq = false := hinv.pend_irq (by rw [hpend]; nofun)
    exact ⟨[.irqAssert], by rw [hc]; rfl, by rw [hirq, hc]; rfl⟩
  | counts n hi hfit hnot hc => exact ⟨[], by rw [hc, List.append_nil], by rw [hc]; rfl⟩
  | resets hi hc => exact ⟨_, by rw [hc, resetChip_log], by rw [lineAfter_deassert, hc, resetChip_eq]⟩
  | acknowledges hi hc => exact ⟨_, by rw [hc, deassertIrq_log], by rw [lineAfter_deassert, hc, deassertIrq_eq]⟩
  | keeps hp ha hr hk hc => exact ⟨[], by rw [hc.log, List.append_nil], by rw [hc.irq]; rfl⟩

/-- Settles O33: what each way makes of the phase is the table's entry. -/
theorem interruptPhasesFollowTheTable : Obligations.InterruptPhasesFollowTheTable := by
  intro i s t p hphase h
  cases exec_chipStep h with
  | plays hp hfit ht => rw [ht, irqPhase_playedState, nextPhase_of_plays hp]
  | fires n target hi hfit hpend hdue hc =>
    subst hi
    obtain rfl := eq_scheduled_of_pend hphase hpend
    rw [hc, irqPhase_fireIrq, nextPhase_fires (firesOn_of_due rfl hpend hdue)]
  | counts n hi hfit hnot hc =>
    subst hi
    rw [hc, nextPhase_stays rfl (firesOn_of_not_due hnot) nofun nofun]; exact hphase
  | resets hi hc => rw [hi, hc, irqPhase_resetChip, nextPhase_reset]
  | acknowledges hi hc => rw [hi, hc, irqPhase_deassertIrq hphase, nextPhase_iack]
  | keeps hp ha hr hk hc =>
    rw [irqPhase_of_sameRuntime hc, hphase, nextPhase_stays hp (firesOn_of_ne_advance ha s) hr hk]

end Sys2Proof.Machine

/-! SUPPORT. The last stages of the renderer: the positions that the stretch and the pitch stage read, silence through the
whole pipeline, and bounds through the whole pipeline. -/

namespace Sys2Proof.Machine

/-! ## The stretch (42_renderer.md R199, R200) -/

theorem stretch_nil (n : Nat) : stretch [] n = zeros n := if_pos rfl

/-- R200 at a position between two whole numbers. -/
theorem lerp_between {x : List Sample} {p : Rat} {k : Nat} (hk : (k : Rat) ≤ p) (hp : p < (k : Rat) + 1) :
    lerp x p =
      if k + 1 < x.length then x.getD k 0 * (1 - (p - k)) + x.getD (k + 1) 0 * (p - k) else x.getD (x.length - 1) 0 := by
  split
  · next h => exact lerp_of_lt hk hp h
  · next h => exact lerp_of_last hk hp (Nat.le_of_not_lt h)

/-- At a whole position inside the sequence interpolation reads the sample there. -/
theorem lerp_index {x : List Sample} {i : Nat} (hi : i < x.length) : some (lerp x (i : Rat)) = x[i]? := by
  rw [lerp_natCast, Nat.min_eq_left (Nat.le_sub_one_of_lt hi), List.getD_eq_getElem?_getD]
  simp [hi]

theorem stretch_length_self (x : List Sample) : stretch x x.length = x := by
  refine List.ext_getElem? fun i => ?_
  obtain hi | hi := Nat.lt_or_ge i x.length
  · have hx : x ≠ [] := List.ne_nil_of_length_pos (Nat.zero_lt_of_lt hi)
    have hl : (x.length : Rat) ≠ 0 := Nat.cast_ne_zero.mpr (List.length_pos_of_ne_nil hx).ne'
    rw [getElem?_stretch hx hi, mul_div_cancel_right₀ _ hl, lerp_index hi]
  · rw [List.getElem?_eq_none (by simpa using hi), List.getElem?_eq_none hi]

theorem head?_stretch {x : List Sample} {n : Nat} (hx : x ≠ []) (hn : 0 < n) : (stretch x n).head? = x.head? := by
  rw [List.head?_eq_getElem?, List.head?_eq_getElem?, getElem?_stretch hx hn,
    ← lerp_index (List.length_pos_of_ne_nil hx)]
  simp

/-! ## The pitch stage (42_renderer.md R203, R204) -/

@[simp] theorem pitch_nil (inf : BitVec 12) : pitch [] inf = [] := rfl

/-- R203 writes the ratio of resampling in two ways. -/
theorem pitch_position (j : Nat) (inf : BitVec 12) :
    (j : Rat) * ((2048 + inf.toNat : Nat) : Rat) / 4096 = (j : Rat) * (1 + ((inf.toNat : Rat) - 2048) / 4096) := by
  push_cast; ring

theorem getElem?_pitch {x : List Sample} {inf : BitVec 12} {j : Nat} (hj : j < (pitch x inf).length) :
    (pitch x inf)[j]? = some (lerp x ((j : Rat) * (1 + ((inf.toNat : Rat) - 2048) / 4096))) := by
  rw [length_pitch] at hj
  simp only [pitch, List.getElem?_map, List.getElem?_range hj, Option.map_some, pitch_position]

/-- The output has a sample for each position that is not beyond the last one of the input. -/
theorem lt_pitchedLength_iff {n : Nat} (hn : 0 < n) (inf : BitVec 12) (j : Nat) :
    j < pitchedLength n inf ↔ (j : Rat) * (1 + ((inf.toNat : Rat) - 2048) / 4096) ≤ (n : Rat) - 1 := by
  have hcast : ((n - 1 : Nat) : Rat) = (n : Rat) - 1 := by rw [Nat.cast_sub hn, Nat.cast_one]
  rw [pitchedLength, if_neg hn.ne', Nat.lt_succ_iff, Nat.le_div_iff_mul_le (by omega), ← pitch_position, ← hcast,
    div_le_iff₀ (by norm_num)]
  exact_mod_cast Iff.rfl

theorem pitchedLength_neutral (n : Nat) : pitchedLength n 2048 = n := by
  cases n with
  | zero => rfl
  | succ n => exact congrArg (· + 1) (Nat.mul_div_cancel n (by decide))

theorem pitch_neutral (x : List Sample) : pitch x 2048 = x := by
  have hlen : (pitch x 2048).length = x.length := by rw [length_pitch, pitchedLength_neutral]
  refine List.ext_getElem? fun j => ?_
  obtain hj | hj := Nat.lt_or_ge j x.length
  · have hpos : (j : Rat) * (1 + (((2048 : BitVec 12).toNat : Rat) - 2048) / 4096) = j := by
      rw [show (2048 : BitVec 12).toNat = 2048 from rfl]; norm_num
    rw [getElem?_pitch (by rwa [hlen]), hpos, lerp_index hj]
  · rw [List.getElem?_eq_none (by rwa [hlen]), List.getElem?_eq_none hj]

theorem head?_pitch (x : List Sample) (inf : BitVec 12) : (pitch x inf).head? = x.head? := by
  cases x with
  | nil => rfl
  | cons v x =>
    have hpos : 0 < (pitch (v :: x) inf).length := by simp [pitchedLength]
    rw [List.head?_eq_getElem?, List.head?_eq_getElem?, getElem?_pitch hpos, ← lerp_index (Nat.succ_pos x.length)]
    simp

/-! ## The whole pipeline -/

/-- Phoneme 1 reads the entry of phoneme 2 (R194). -/
theorem lookup_one (cfg : Config) : lookup cfg 1 = lookup cfg 2 := rfl

/-- From stage 3 on, silence stays silence. -/
theorem renderBuffer_of_silence {cfg : Config} {p : RenderParams} {n : Nat}
    (h : filterStage cfg (ampScale (lookup cfg p.p8) p.amp) p.ff = zeros n) :
    (renderBuffer cfg p).pcm = zeros (renderBuffer cfg p).pcm.length := by
  have hpcm : (renderBuffer cfg p).pcm = zeros (pitchedLength (alignedLength cfg p.dm p.rate) p.inf) := by
    simp only [renderBuffer, h, align_zeros, pitch_zeros, normalize_zeros]
  rw [hpcm, length_zeros]

/-! ## Bounds (42_renderer.md R206) -/

/-- Every sample lies between two bounds. -/
def Within (lo hi : Rat) (x : List Sample) : Prop := ∀ v ∈ x, lo ≤ v ∧ v ≤ hi

section
variable {lo hi : Rat} {x : List Sample}

theorem within_map_range {n : Nat} {f : Nat → Sample} (h : ∀ k < n, lo ≤ f k ∧ f k ≤ hi) :
    Within lo hi ((List.range n).map f) := by
  intro v hv
  obtain ⟨k, hk, rfl⟩ := List.mem_map.mp hv
  exact h k (List.mem_range.mp hk)

theorem within_zeros (hlo : lo ≤ 0) (hhi : 0 ≤ hi) (n : Nat) : Within lo hi (zeros n) := by
  intro v hv
  obtain ⟨-, rfl⟩ := mem_zeros.mp hv
  exact ⟨hlo, hhi⟩

/-- Scaling moves a sample towards 0. -/
theorem Within.ampScale (h : Within lo hi x) (hlo : lo ≤ 0) (hhi : 0 ≤ hi) (amp : BitVec 4) :
    Within lo hi (ampScale x amp) := by
  intro v hv
  obtain ⟨u, hu, rfl⟩ := List.mem_map.mp hv
  obtain ⟨hl, hh⟩ := h u hu
  have ha : (amp.toNat : Rat) ≤ 15 := by exact_mod_cast Nat.le_of_lt_succ amp.isLt
  have ha0 : (0 : Rat) ≤ amp.toNat := Nat.cast_nonneg _
  rw [le_div_iff₀ (by norm_num), div_le_iff₀ (by norm_num)]
  constructor <;> nlinarith

theorem Within.filterStage {cfg : Config} (h : Within lo hi x) (hlo : lo ≤ 0) (hhi : 0 ≤ hi)
    (hfilt : cfg.filt = .identity) (ff : BitVec 8) : Within lo hi (filterStage cfg x ff) := by
  by_cases hff : ff = 0xFF
  · rw [hff, filterStage_ff]; exact within_zeros hlo hhi _
  · rw [filterStage_identity hfilt hff]; exact h

/-- The mean of a group lies between the bounds of its samples. -/
theorem Within.groupMeans (h : Within lo hi x) {g : Nat} (hg : 0 < g) : Within lo hi (groupMeans g x) := by
  refine within_map_range fun i hi' => ?_
  have hmem : ∀ v ∈ (List.range g).map fun j => x.getD (g * i + j) 0, lo ≤ v ∧ v ≤ hi := by
    refine within_map_range fun j hj => h _ (getD_mem ?_ 0)
    have := Nat.mul_le_of_le_div g (i + 1) x.length hi'
    nlinarith
  have hlow := List.card_nsmul_le_sum _ lo fun v hv => (hmem v hv).1
  have hhigh := List.sum_le_card_nsmul _ hi fun v hv => (hmem v hv).2
  rw [List.length_map, List.length_range, nsmul_eq_mul, mul_comm (g : Rat)] at hlow hhigh
  have hg' : (0 : Rat) < g := Nat.cast_pos.mpr hg
  exact ⟨(le_div_iff₀ hg').mpr hlow, (div_le_iff₀ hg').mpr hhigh⟩

theorem Within.average (h : Within lo hi x) (dm : BitVec 2) : Within lo hi (average x dm) := by
  unfold Machine.average
  split
  · exact h.groupMeans (by decide)
  · exact h.groupMeans (by decide)
  · exact h

theorem Within.stretch_of_ne_nil (h : Within lo hi x) (hx : x ≠ []) (n : Nat) : Within lo hi (stretch x n) := by
  rw [Machine.stretch, if_neg hx]
  exact within_map_range fun i _ => lerp_bounds (by positivity) hx h

theorem Within.stretch (h : Within lo hi x) (hlo : lo ≤ 0) (hhi : 0 ≤ hi) (n : Nat) : Within lo hi (stretch x n) := by
  by_cases hx : x = []
  · rw [hx, stretch_nil]; exact within_zeros hlo hhi n
  · exact h.stretch_of_ne_nil hx n

theorem Within.pitch (h : Within lo hi x) (inf : BitVec 12) : Within lo hi (pitch x inf) := by
  by_cases hx : x = []
  · rw [hx, pitch_nil]; nofun
  · exact within_map_range fun j _ => lerp_bounds (by positivity) hx h

end

/-- The library samples of a well-formed configuration, and the 0 of a read that finds none. -/
theorem within_lookup {cfg : Config} (h : configOk cfg = true) (p8 : BitVec 8) :
    Within (-2 ^ (cfg.sampleW - 1)) (2 ^ (cfg.sampleW - 1) - 1) (lookup cfg p8) := by
  obtain ⟨-, -, -, -, -, -, hpcm⟩ := constraints_of_configOk h
  have hread (k : Nat) : -2 ^ (cfg.sampleW - 1) ≤ cfg.pcm.getD k 0 ∧ cfg.pcm.getD k 0 ≤ 2 ^ (cfg.sampleW - 1) - 1 := by
    have hs : (1 : Int) ≤ 2 ^ (cfg.sampleW - 1) := one_le_pow₀ (by norm_num)
    rw [List.getD_eq_getElem?_getD]
    cases hk : cfg.pcm[k]? with
    | none => rw [Option.getD_none]; omega
    | some v =>
      obtain ⟨hl, hh⟩ := hpcm v (List.mem_of_getElem? hk)
      exact ⟨hl, Int.le_sub_one_of_lt hh⟩
  rw [lookup]
  split
  · nofun
  · refine within_map_range fun k _ => ?_
    exact_mod_cast hread _

/-- Dividing by the full scale brings the samples into [-1, 1). -/
theorem normalize_mem_unit {cfg : Config} {x : List Sample} (hfq : cfg.fq = .identity)
    (h : Within (-2 ^ (cfg.sampleW - 1)) (2 ^ (cfg.sampleW - 1) - 1) x) : ∀ v ∈ normalize cfg x, -1 ≤ v ∧ v < 1 := by
  intro v hv
  obtain ⟨u, hu, rfl⟩ := List.mem_map.mp hv
  obtain ⟨hl, hh⟩ := h u hu
  have hs : (0 : Rat) < 2 ^ (cfg.sampleW - 1) := by positivity
  rw [hfq, quantise, Nat.cast_pow, Nat.cast_ofNat, le_div_iff₀ hs, div_lt_iff₀ hs]
  constructor <;> linarith

/-- Under the spec's filter every stage up to the fifth keeps the range of the library. -/
theorem renderBuffer_mem_unit {cfg : Config} (hcfg : configOk cfg = true) (hfilt : cfg.filt = .identity)
    (hfq : cfg.fq = .identity) (p : RenderParams) : ∀ v ∈ (renderBuffer cfg p).pcm, -1 ≤ v ∧ v < 1 := by
  have hs : (1 : Rat) ≤ 2 ^ (cfg.sampleW - 1) := one_le_pow₀ (by norm_num)
  have hlo : -2 ^ (cfg.sampleW - 1) ≤ (0 : Rat) := by linarith
  have hhi : (0 : Rat) ≤ 2 ^ (cfg.sampleW - 1) - 1 := by linarith
  have hfiltered := ((within_lookup hcfg p.p8).ampScale hlo hhi p.amp).filterStage hlo hhi hfilt p.ff
  have haligned := (hfiltered.average p.dm).stretch hlo hhi (alignedLength cfg p.dm p.rate)
  exact normalize_mem_unit hfq (haligned.pitch p.inf)

/-! ## PULL at its corners (43_audio_queue.md R237) -/

/-- Empty buffers contribute nothing and are removed. -/
theorem pullLoop_of_empty_buffers {q : List Buffer} {need : Nat} (hn : need ≠ 0) (hq : ∀ b ∈ q, b.pcm = []) :
    pullLoop q 0 need = (zeros need, true, [], 0) := by
  induction q with
  | nil => rw [pullLoop, if_neg hn]
  | cons b rest ih =>
    obtain ⟨hb, hrest⟩ := List.forall_mem_cons.mp hq
    rw [pullLoop_used hn (by simp [hb])]
    simp [hb, ih hrest]

theorem pullBody_of_empty_buffers {k : Sink} {blockSize : Nat} (hb : 0 < blockSize) (hh : k.hpos = 0)
    (hq : ∀ b ∈ k.q, b.pcm = []) : pullBody blockSize k = (⟨zeros blockSize, true⟩, { k with q := [] }) := by
  simp only [pullBody, hh, pullLoop_of_empty_buffers hb.ne' hq]

theorem pullBody_of_exact_fit {k : Sink} {blockSize : Nat} {b : Buffer} (hb : 0 < blockSize) (hh : k.hpos = 0)
    (hq : k.q = [b]) (hl : b.pcm.length = blockSize) :
    pullBody blockSize k = (⟨b.pcm, false⟩, { k with q := [] }) := by
  have hloop : pullLoop [b] 0 blockSize = (b.pcm, false, [], 0) := by
    rw [pullLoop_used hb.ne' (by rw [hl]; exact Nat.sub_le _ _)]
    simp [hl, pullLoop]
  simp only [pullBody, hq, hh, hloop]

end Sys2Proof.Machine

/-! The statements of 42_renderer.md on the later stages and on the whole buffer, and the corners of PULL. -/

namespace Sys2Proof.Machine

/-- Settles O43: the samples are interpolations, whole positions read samples, and interpolation stays between bounds. -/
theorem stretchHitsTheTargetLength : Obligations.StretchHitsTheTargetLength := by
  intro x n
  refine ⟨length_stretch x n, ?_, fun hx i => getElem?_stretch hx, fun p k _ => lerp_between, ?_, fun v hv hn => ?_,
    fun lo hi hx h => Within.stretch_of_ne_nil h hx n⟩
  · rintro rfl; exact stretch_nil n
  · rintro rfl; exact stretch_length_self x
  · have hx : x ≠ [] := by rintro rfl; cases hv
    rw [head?_stretch hx hn, hv]

/-- Settles O44, from the positions that the stage reads. -/
theorem pitchStageLengthAndNeutral : Obligations.PitchStageLengthAndNeutral := by
  intro x inf
  refine ⟨pitch_neutral x, ?_, fun hx j => ?_, fun j => getElem?_pitch, head?_pitch x inf⟩
  · rintro rfl; exact pitch_nil inf
  · rw [length_pitch]; exact lt_pitchedLength_iff (List.length_pos_of_ne_nil hx) inf j

/-- Settles O45: only stages 4 and 5 set the length. -/
theorem renderedLength : Obligations.RenderedLength := by
  intro cfg p n
  rw [length_renderBuffer, alignedLength, durationMs_eq, pitchedLength]

/-- Settles O46: each case silences the buffer by stage 3. -/
theorem silenceCases : Obligations.SilenceCases := by
  rintro cfg p (h | h | h)
  · exact renderBuffer_of_silence (by rw [h, ampScale_zero, filterStage_zeros])
  · exact renderBuffer_of_silence (by rw [h, filterStage_ff])
  · exact renderBuffer_of_silence (n := 0) (by rw [h, lookup_zero]; exact filterStage_zeros cfg 0 p.ff)

/-- Settles O47: only the lookup reads the phoneme. -/
theorem phonemeOneIsAnAliasOfTwo : Obligations.PhonemeOneIsAnAliasOfTwo := by
  intro p s
  have hbuffer : renderBuffer s.cfg { p with p8 := 1 } = renderBuffer s.cfg { p with p8 := 2 } := by
    simp only [renderBuffer, lookup_one]
  rw [exec_render_legal (p := { p with p8 := 1 }) (show (1 : BitVec 8).toNat ≤ 63 by decide),
    exec_render_legal (p := { p with p8 := 2 }) (show (2 : BitVec 8).toNat ≤ 63 by decide), hbuffer]

/-- Settles O48: the range of the library is kept up to stage 5, and stage 6 divides by the full scale. -/
theorem renderedSamplesAreInUnitRange : Obligations.RenderedSamplesAreInUnitRange := by
  refine ⟨fun cfg x5 => ⟨length_normalize cfg x5, fun j hj => ?_, fun _ => rfl⟩,
    fun cfg p hcfg hfilt hfq => renderBuffer_mem_unit hcfg hfilt hfq p⟩
  rw [getElem?_normalize]
  simp [hj]

/-- Settles O51: the body of PULL in each case. -/
theorem pullCornerCases : Obligations.PullCornerCases := by
  intro s hm hb hh
  refine ⟨fun hq => ?_, fun hq => ?_, fun b hq hl => ?_⟩ <;> rw [exec_pull_running hm]
  · rw [pullBody_of_empty_buffers hb hh (by simp [hq]), ← hq]
  · rw [pullBody_of_empty_buffers hb hh hq]
  · rw [pullBody_of_exact_fit hb hh hq hl]

end Sys2Proof.Machine
